-- ==== Sys2Proof/Word.lean ====
section
/-! DEFINITION. The words of the machine (spec/00_scope.md R4, R5; spec/10_state.md R10). Every value is
unsigned; no instruction sign-extends anything. -/

namespace Sys2Proof

/-- A byte: a general register, a timer, a memory byte, the immediate `nn`. -/
abbrev Byte := BitVec 8

/-- Sixteen bits: `I`, `pc`, a call stack entry, an instruction word. -/
abbrev Word := BitVec 16

/-- The 12-bit address field `nnn` of an instruction word. -/
abbrev Addr := BitVec 12

/-- A general register's index. R11: it is always one 4-bit field, so none is out of range. -/
abbrev Reg := Fin 16

/-- An unsigned 4-bit field that names no register: the row count `n` of `Dxyn`. -/
abbrev Nibble := Fin 16

end Sys2Proof
end

