-- ==== Sys2Proof/Syntax.lean ====
section
/-! DEFINITION. The instructions: one constructor per row of spec/opcode_table.json, in its order
(spec/30_encoding.md R53, R55), with the fields of the row as operands. -/

namespace Sys2Proof

/-- The 35 instruction kinds of R53. An operand's type is as wide as its field (R51), so every term is an
instruction some word encodes. `shr` and `shl` carry the field `y` that R58 says takes part in nothing, so
that every legal word is the encoding of exactly one term (log entry 18). -/
inductive Instr where
  | nop
  | cls
  | ret
  | jp (nnn : Addr)
  | call (nnn : Addr)
  | seI (x : Reg) (nn : Byte)
  | sneI (x : Reg) (nn : Byte)
  | seR (x y : Reg)
  | ldI (x : Reg) (nn : Byte)
  | addI (x : Reg) (nn : Byte)
  | ldR (x y : Reg)
  | orR (x y : Reg)
  | andR (x y : Reg)
  | xorR (x y : Reg)
  | addR (x y : Reg)
  | sub (x y : Reg)
  | shr (x y : Reg)
  | subn (x y : Reg)
  | shl (x y : Reg)
  | sneR (x y : Reg)
  | ldIdx (nnn : Addr)
  | jpV0 (nnn : Addr)
  | rnd (x : Reg) (nn : Byte)
  | drw (x y : Reg) (n : Nibble)
  | skp (x : Reg)
  | sknp (x : Reg)
  | ldVxDt (x : Reg)
  | ldVxK (x : Reg)
  | ldDtVx (x : Reg)
  | ldStVx (x : Reg)
  | addIdx (x : Reg)
  | ldF (x : Reg)
  | ldB (x : Reg)
  | stRegs (x : Reg)
  | ldRegs (x : Reg)
  deriving DecidableEq, Repr

/-- The label of R55 (the row's mnemonic in spec/opcode_table.json). -/
def Instr.label : Instr → String
  | .nop => "NOP"
  | .cls => "CLS"
  | .ret => "RET"
  | .jp _ => "JP"
  | .call _ => "CALL"
  | .seI _ _ => "SE_I"
  | .sneI _ _ => "SNE_I"
  | .seR _ _ => "SE_R"
  | .ldI _ _ => "LD_I"
  | .addI _ _ => "ADD_I"
  | .ldR _ _ => "LD_R"
  | .orR _ _ => "OR"
  | .andR _ _ => "AND"
  | .xorR _ _ => "XOR"
  | .addR _ _ => "ADD_R"
  | .sub _ _ => "SUB"
  | .shr _ _ => "SHR"
  | .subn _ _ => "SUBN"
  | .shl _ _ => "SHL"
  | .sneR _ _ => "SNE_R"
  | .ldIdx _ => "LD_IDX"
  | .jpV0 _ => "JP_V0"
  | .rnd _ _ => "RND"
  | .drw _ _ _ => "DRW"
  | .skp _ => "SKP"
  | .sknp _ => "SKNP"
  | .ldVxDt _ => "LD_VX_DT"
  | .ldVxK _ => "LD_VX_K"
  | .ldDtVx _ => "LD_DT_VX"
  | .ldStVx _ => "LD_ST_VX"
  | .addIdx _ => "ADD_IDX"
  | .ldF _ => "LD_F"
  | .ldB _ => "LD_B"
  | .stRegs _ => "ST_REGS"
  | .ldRegs _ => "LD_REGS"

end Sys2Proof
end

