-- ==== Sys2Proof/WellFormed.lean ====
section
/-! DEFINITION. Which words are instructions: the opcode table as (match, mask) rows (spec/30_encoding.md
R54, R55; spec/opcode_table.json) and the check of a word against it. This is written from the table alone
and shares nothing with the decoder of Decode.lean, which is written from the case function of R53; that
the two agree is a statement. A term of `Instr` needs no check of its own: its operands' types are exactly
the fields' widths (R11, R51). -/

namespace Sys2Proof

/-- One row of the opcode map of R55. -/
structure OpcodeRow where
  label : String
  pattern : Word
  mask : Word
  deriving DecidableEq, Repr

/-- R55: "A word `w` is instruction number `k` exactly when `(w & mask_k) = match_k`." -/
def OpcodeRow.admits (r : OpcodeRow) (w : Word) : Bool := w &&& r.mask == r.pattern

/-- Fixed and flow rows of R55. -/
def opcodeRowsFlow : List OpcodeRow :=
  [⟨"NOP", 0x0000#16, 0xFFFF#16⟩,
   ⟨"CLS", 0x00E0#16, 0xFFFF#16⟩,
   ⟨"RET", 0x00EE#16, 0xFFFF#16⟩,
   ⟨"JP", 0x1000#16, 0xF000#16⟩,
   ⟨"CALL", 0x2000#16, 0xF000#16⟩]

/-- Skip, load and add rows of R55. -/
def opcodeRowsImmediate : List OpcodeRow :=
  [⟨"SE_I", 0x3000#16, 0xF000#16⟩,
   ⟨"SNE_I", 0x4000#16, 0xF000#16⟩,
   ⟨"SE_R", 0x5000#16, 0xF00F#16⟩,
   ⟨"LD_I", 0x6000#16, 0xF000#16⟩,
   ⟨"ADD_I", 0x7000#16, 0xF000#16⟩]

/-- Rows with `op` 8 and 9 of R55. -/
def opcodeRowsAlu : List OpcodeRow :=
  [⟨"LD_R", 0x8000#16, 0xF00F#16⟩,
   ⟨"OR", 0x8001#16, 0xF00F#16⟩,
   ⟨"AND", 0x8002#16, 0xF00F#16⟩,
   ⟨"XOR", 0x8003#16, 0xF00F#16⟩,
   ⟨"ADD_R", 0x8004#16, 0xF00F#16⟩,
   ⟨"SUB", 0x8005#16, 0xF00F#16⟩,
   ⟨"SHR", 0x8006#16, 0xF00F#16⟩,
   ⟨"SUBN", 0x8007#16, 0xF00F#16⟩,
   ⟨"SHL", 0x800E#16, 0xF00F#16⟩,
   ⟨"SNE_R", 0x9000#16, 0xF00F#16⟩]

/-- Rows with `op` A to D of R55. -/
def opcodeRowsIndex : List OpcodeRow :=
  [⟨"LD_IDX", 0xA000#16, 0xF000#16⟩,
   ⟨"JP_V0", 0xB000#16, 0xF000#16⟩,
   ⟨"RND", 0xC000#16, 0xF000#16⟩,
   ⟨"DRW", 0xD000#16, 0xF000#16⟩]

/-- Rows with `op` E and F of R55. -/
def opcodeRowsMisc : List OpcodeRow :=
  [⟨"SKP", 0xE09E#16, 0xF0FF#16⟩,
   ⟨"SKNP", 0xE0A1#16, 0xF0FF#16⟩,
   ⟨"LD_VX_DT", 0xF007#16, 0xF0FF#16⟩,
   ⟨"LD_VX_K", 0xF00A#16, 0xF0FF#16⟩,
   ⟨"LD_DT_VX", 0xF015#16, 0xF0FF#16⟩,
   ⟨"LD_ST_VX", 0xF018#16, 0xF0FF#16⟩,
   ⟨"ADD_IDX", 0xF01E#16, 0xF0FF#16⟩,
   ⟨"LD_F", 0xF029#16, 0xF0FF#16⟩,
   ⟨"LD_B", 0xF033#16, 0xF0FF#16⟩,
   ⟨"ST_REGS", 0xF055#16, 0xF0FF#16⟩,
   ⟨"LD_REGS", 0xF065#16, 0xF0FF#16⟩]

/-- The 35 rows of R55, in its order. -/
def opcodeTable : List OpcodeRow :=
  opcodeRowsFlow ++ opcodeRowsImmediate ++ opcodeRowsAlu ++ opcodeRowsIndex ++ opcodeRowsMisc

/-- The rows that admit a word (R54: never more than one). -/
def rowsOf (w : Word) : List OpcodeRow := opcodeTable.filter (·.admits w)

/-- The check on a word: some row of the table admits it. R56: every other word is illegal. -/
def wellFormedWord (w : Word) : Bool := opcodeTable.any (·.admits w)

/-- The row an instruction belongs to: the one with its label (R61 gives each row a distinct label). -/
def Instr.row (i : Instr) : Option OpcodeRow := opcodeTable.find? (·.label == i.label)

end Sys2Proof
end

