-- ==== Sys2Proof/Decode.lean ====
section
/-! DEFINITION. The decoder of spec/30_encoding.md R53, total on any bytes, and the encoder after it. -/

namespace Sys2Proof

/-! ## Fields and byte order -/

/-- R4: `v[hi:lo]`, the bit slice as an unsigned integer of `hi - lo + 1` bits. -/
def slice (w : Word) (hi lo : Nat) : Nat := w.toNat / 2 ^ lo % 2 ^ (hi - lo + 1)

/-- R51: `op = w[15:12]`. -/
def fieldOp (w : Word) : Nat := slice w 15 12

/-- R51: `x = w[11:8]`. -/
def fieldX (w : Word) : Reg := Fin.ofNat 16 (slice w 11 8)

/-- R51: `y = w[7:4]`. -/
def fieldY (w : Word) : Reg := Fin.ofNat 16 (slice w 7 4)

/-- R51: `n = w[3:0]`. -/
def fieldN (w : Word) : Nibble := Fin.ofNat 16 (slice w 3 0)

/-- R51: `nn = w[7:0]`. -/
def fieldNN (w : Word) : Byte := BitVec.ofNat 8 (slice w 7 0)

/-- R51: `nnn = w[11:0]`. -/
def fieldNNN (w : Word) : Addr := BitVec.ofNat 12 (slice w 11 0)

/-- R30: the instruction word, the byte at the lower address in bits 15:8. -/
def wordOfBytes (hi lo : Byte) : Word := BitVec.ofNat 16 (hi.toNat * 256 + lo.toNat)

/-- Bits 15:8 of a word: the byte stored at the lower address (R30). -/
def highByte (w : Word) : Byte := BitVec.ofNat 8 (slice w 15 8)

/-- Bits 7:0 of a word: the byte stored at the higher address (R30). -/
def lowByte (w : Word) : Byte := BitVec.ofNat 8 (slice w 7 0)

/-! ## The decoder -/

/-- The case `op = 0` of R53: three full words. -/
def decodeFixed (nnn : Nat) : Option Instr :=
  match nnn with
  | 0x000 => some .nop
  | 0x0E0 => some .cls
  | 0x0EE => some .ret
  | _ => none

/-- The case `op = 8` of R53, selected by `n`. -/
def decodeAlu (n : Nat) (x y : Reg) : Option Instr :=
  match n with
  | 0x0 => some (.ldR x y)
  | 0x1 => some (.orR x y)
  | 0x2 => some (.andR x y)
  | 0x3 => some (.xorR x y)
  | 0x4 => some (.addR x y)
  | 0x5 => some (.sub x y)
  | 0x6 => some (.shr x y)
  | 0x7 => some (.subn x y)
  | 0xE => some (.shl x y)
  | _ => none

/-- The case `op = 0xE` of R53, selected by `nn`. -/
def decodeKey (nn : Nat) (x : Reg) : Option Instr :=
  match nn with
  | 0x9E => some (.skp x)
  | 0xA1 => some (.sknp x)
  | _ => none

/-- The case `op = 0xF` of R53, selected by `nn`. -/
def decodeMisc (nn : Nat) (x : Reg) : Option Instr :=
  match nn with
  | 0x07 => some (.ldVxDt x)
  | 0x0A => some (.ldVxK x)
  | 0x15 => some (.ldDtVx x)
  | 0x18 => some (.ldStVx x)
  | 0x1E => some (.addIdx x)
  | 0x29 => some (.ldF x)
  | 0x33 => some (.ldB x)
  | 0x55 => some (.stRegs x)
  | 0x65 => some (.ldRegs x)
  | _ => none

/-- R53: a pure function from the word to an instruction with its operands, or `none` for Illegal (R56).
R59: `5xy0`, `8xy0` and `9xy0` are decoded with their trailing nibble. The last arm is never taken: `op`
has four bits. -/
def decodeWord (w : Word) : Option Instr :=
  match fieldOp w with
  | 0x0 => decodeFixed (slice w 11 0)
  | 0x1 => some (.jp (fieldNNN w))
  | 0x2 => some (.call (fieldNNN w))
  | 0x3 => some (.seI (fieldX w) (fieldNN w))
  | 0x4 => some (.sneI (fieldX w) (fieldNN w))
  | 0x5 => if slice w 3 0 = 0 then some (.seR (fieldX w) (fieldY w)) else none
  | 0x6 => some (.ldI (fieldX w) (fieldNN w))
  | 0x7 => some (.addI (fieldX w) (fieldNN w))
  | 0x8 => decodeAlu (slice w 3 0) (fieldX w) (fieldY w)
  | 0x9 => if slice w 3 0 = 0 then some (.sneR (fieldX w) (fieldY w)) else none
  | 0xA => some (.ldIdx (fieldNNN w))
  | 0xB => some (.jpV0 (fieldNNN w))
  | 0xC => some (.rnd (fieldX w) (fieldNN w))
  | 0xD => some (.drw (fieldX w) (fieldY w) (fieldN w))
  | 0xE => decodeKey (slice w 7 0) (fieldX w)
  | 0xF => decodeMisc (slice w 7 0) (fieldX w)
  | _ => none

/-- What the decoder makes of a sequence of bytes. -/
inductive Decoded where
  /-- An instruction, and the bytes after it. -/
  | instr (i : Instr) (rest : List Byte)
  /-- The first word matches no pattern (R56). -/
  | illegalInstruction (w : Word)
  /-- Fewer bytes than one instruction word (R50: every instruction is two bytes). -/
  | truncated
  deriving DecidableEq, Repr

/-- The decoder on bytes: the first two, high byte first (R30, R50). -/
def decode : List Byte → Decoded
  | hi :: lo :: rest =>
    match decodeWord (wordOfBytes hi lo) with
    | some i => .instr i rest
    | none => .illegalInstruction (wordOfBytes hi lo)
  | _ => .truncated

/-! ## The encoder -/

/-- The format `NNN` of R51: `op[4] nnn[12]`. -/
def packNNN (op : Nat) (nnn : Addr) : Word := BitVec.ofNat 16 (op * 4096 + nnn.toNat)

/-- The format `XNN` of R51: `op[4] x[4] nn[8]`. -/
def packXNN (op : Nat) (x : Reg) (nn : Byte) : Word := BitVec.ofNat 16 (op * 4096 + x.val * 256 + nn.toNat)

/-- The format `XYN` of R51: `op[4] x[4] y[4] n[4]`. -/
def packXYN (op : Nat) (x y : Reg) (n : Nibble) : Word :=
  BitVec.ofNat 16 (op * 4096 + x.val * 256 + y.val * 16 + n.val)

/-- The word of an instruction, by the patterns of R55. -/
def encode : Instr → Word
  | .nop => 0x0000#16
  | .cls => 0x00E0#16
  | .ret => 0x00EE#16
  | .jp nnn => packNNN 0x1 nnn
  | .call nnn => packNNN 0x2 nnn
  | .seI x nn => packXNN 0x3 x nn
  | .sneI x nn => packXNN 0x4 x nn
  | .seR x y => packXYN 0x5 x y 0x0
  | .ldI x nn => packXNN 0x6 x nn
  | .addI x nn => packXNN 0x7 x nn
  | .ldR x y => packXYN 0x8 x y 0x0
  | .orR x y => packXYN 0x8 x y 0x1
  | .andR x y => packXYN 0x8 x y 0x2
  | .xorR x y => packXYN 0x8 x y 0x3
  | .addR x y => packXYN 0x8 x y 0x4
  | .sub x y => packXYN 0x8 x y 0x5
  | .shr x y => packXYN 0x8 x y 0x6
  | .subn x y => packXYN 0x8 x y 0x7
  | .shl x y => packXYN 0x8 x y 0xE
  | .sneR x y => packXYN 0x9 x y 0x0
  | .ldIdx nnn => packNNN 0xA nnn
  | .jpV0 nnn => packNNN 0xB nnn
  | .rnd x nn => packXNN 0xC x nn
  | .drw x y n => packXYN 0xD x y n
  | .skp x => packXNN 0xE x 0x9E#8
  | .sknp x => packXNN 0xE x 0xA1#8
  | .ldVxDt x => packXNN 0xF x 0x07#8
  | .ldVxK x => packXNN 0xF x 0x0A#8
  | .ldDtVx x => packXNN 0xF x 0x15#8
  | .ldStVx x => packXNN 0xF x 0x18#8
  | .addIdx x => packXNN 0xF x 0x1E#8
  | .ldF x => packXNN 0xF x 0x29#8
  | .ldB x => packXNN 0xF x 0x33#8
  | .stRegs x => packXNN 0xF x 0x55#8
  | .ldRegs x => packXNN 0xF x 0x65#8

/-- The two bytes of an instruction in memory order (R30). -/
def encodeBytes (i : Instr) : List Byte := [highByte (encode i), lowByte (encode i)]

/-! ## The opcode table's numbering of bits -/

/-- The word the table numbers as `w`: its `nbits` bits, and zero above them. -/
def tableWord (nbits w : Nat) : Word := BitVec.ofNat 16 (w % 2 ^ nbits)

/-- What `decode` reads from that word laid out in memory order. -/
def decodeTableWord (nbits w : Nat) : Option Instr :=
  match decode [highByte (tableWord nbits w), lowByte (tableWord nbits w)] with
  | .instr i _ => some i
  | _ => none

end Sys2Proof
end

