-- ==== Sys2Proof/Config.lean ====
section
/-! DEFINITION. The parameters of spec/00_scope.md R3, as named constants, and the one free value. The 80
font bytes, a parameter too, are in Machine/Font.lean. -/

namespace Sys2Proof.Config

/-- `MEM_SIZE`: bytes of memory. -/
def memSize : Nat := 4096

/-- `PROG_BASE`: the load address and the reset value of `pc`. -/
def progBase : Nat := 0x200

/-- `PROG_MAX`: the largest program that loads, `MEM_SIZE - PROG_BASE`. -/
def progMax : Nat := memSize - progBase

/-- `FONT_BASE`: the address of the font table. -/
def fontBase : Nat := 0

/-- `FONT_LEN`: bytes of the font table. -/
def fontLen : Nat := 80

/-- `GLYPH_ROWS`: bytes per glyph. -/
def glyphRows : Nat := 5

/-- `STACK_DEPTH`: entries of the call stack. -/
def stackDepth : Nat := 16

/-- `W`: display columns. -/
def width : Nat := 64

/-- `H`: display rows. -/
def height : Nat := 32

/-- `NKEYS`: virtual keys. -/
def nkeys : Nat := 16

/-- `INSTR_BYTES`: bytes per instruction. -/
def instrBytes : Nat := 2

/-- FREE VALUE (DESIGN CHOICE of the form; log entry 1). The byte `rnd` that the source outside the block
supplies for the draw numbered `k` (spec/43_alu.md R101, spec/50_host_operations.md R136: any of 0 to 255,
under no law). It has no body, so a theorem about it holds for every sequence of bytes. -/
opaque rnd : Nat → Byte

end Sys2Proof.Config
end

