-- ==== Sys2Proof/Machine/Font.lean ====
section
/-! DEFINITION. The parameter `FONT[0..79]` of spec/00_scope.md R3, with the default of spec/10_state.md R17.
It stands here and not in Config.lean so that a repair may mend a byte of it. -/

namespace Sys2Proof.Config

/-- PRESUMED (log entry 2): the default table of R17, "the table Chip-8 machines conventionally use"; the
source gives no byte values (D13, G2). One row per glyph, row 0 of the glyph first. -/
def fontGlyphs : List (List Byte) :=
  [[0xF0, 0x90, 0x90, 0x90, 0xF0],
   [0x20, 0x60, 0x20, 0x20, 0x70],
   [0xF0, 0x10, 0xF0, 0x80, 0xF0],
   [0xF0, 0x10, 0xF0, 0x10, 0xF0],
   [0x90, 0x90, 0xF0, 0x10, 0x10],
   [0xF0, 0x80, 0xF0, 0x10, 0xF0],
   [0xF0, 0x80, 0xF0, 0x90, 0xF0],
   [0xF0, 0x10, 0x20, 0x40, 0x40],
   [0xF0, 0x90, 0xF0, 0x90, 0xF0],
   [0xF0, 0x90, 0xF0, 0x10, 0xF0],
   [0xF0, 0x90, 0xF0, 0x90, 0x90],
   [0xE0, 0x90, 0xE0, 0x90, 0xE0],
   [0xF0, 0x80, 0x80, 0x80, 0xF0],
   [0xE0, 0x90, 0x90, 0x90, 0xE0],
   [0xF0, 0x80, 0xF0, 0x80, 0xF0],
   [0xF0, 0x80, 0xF0, 0x80, 0x80]]

/-- `FONT[k]` for `0 ≤ k < 80`: row `k mod 5` of glyph `k div 5` (R17). -/
def font (k : Nat) : Byte := (fontGlyphs.getD (k / glyphRows) []).getD (k % glyphRows) 0

end Sys2Proof.Config
end

