-- ==== Sys2Proof/Machine/State.lean ====
section
/-! DEFINITION. The state of the block (spec/10_state.md R10), the reasons a cycle or a host operation ends
without a next state (spec/60_exceptions.md R140), and the state after reset (spec/10_state.md R23). -/

namespace Sys2Proof.Machine

/-- `mem` as (address, byte) pairs, only the bytes that differ from their reset contents, addresses strictly
rising (`Memory.wf`). An address that is not listed reads as its reset contents (`Memory.background`). -/
abbrev Memory := List Host.Cell

/-- `V[0]` to `V[15]` (R11). -/
abbrev Regs := Vector Byte 16

/-- `disp[r][c]`, 32 rows of 64 pixels; `true` is lit (R18). -/
abbrev Display := Vector (Vector Bool 64) 32

/-- `keys[k]`, one per virtual key; `true` is pressed (R19). -/
abbrev Keys := Vector Bool 16

/-- The ten components of R10, and the model's own counter of random draws. -/
structure State where
  /-- R16: 4096 bytes, instructions and data. -/
  mem : Memory
  /-- R11: the general registers; `V[15]` is the flag register (R12). -/
  regs : Regs
  /-- R13: the index register `I`. -/
  idx : Word
  /-- R14: the program counter. -/
  pc : Word
  /-- R15: the sixteen call stack entries. -/
  stack : Vector Word 16
  /-- R15: how many entries are in use, 0 to 16. -/
  sp : Fin 17
  /-- R18: the frame buffer. -/
  disp : Display
  /-- R19: the key vector. -/
  keys : Keys
  /-- R20: the delay timer `DT`. -/
  dt : Byte
  /-- R20: the sound timer `ST`. -/
  st : Byte
  /-- Not the spec's (log entry 1): how many random bytes `Cxnn` has consumed. -/
  draws : Nat
  deriving DecidableEq, Repr

/-- The six error kinds of R140, with the information value each carries (log entry 7). The operation that
raises one leaves the state as it was (R146). SAFE, all six: the model stops where the spec says the
operation ends with an error. -/
inductive Fault where
  /-- Raised by `load_program` when the image is longer than 3584 bytes; `length` is its length (R132). Safe. -/
  | programTooLarge (length : Nat)
  /-- Raised by `set_key_state`, `Ex9E` and `ExA1` for a key number above 15 (R133, R121, R122). Safe: for the
  two instructions it is the spec's decision D11 where the source is silent (log entry 5). -/
  | invalidKeyIndex (index : Nat)
  /-- Raised by the decode stage for a word that matches no pattern, which it carries (R143). Safe. -/
  | illegalInstruction (w : Word)
  /-- Raised by `2nnn` when all 16 entries are in use; `addr` is the instruction's address (R144). Safe. -/
  | stackOverflow (addr : Word)
  /-- Raised by `00EE` when no entry is in use; `addr` is the instruction's address (R144). Safe. -/
  | stackUnderflow (addr : Word)
  /-- Raised by the fetch and by `Dxyn`, `Fx33`, `Fx55`, `Fx65` for an address of 4096 or more; it carries the
  lowest such address the access would use (R145). Safe. -/
  | memoryFault (address : Nat)
  deriving DecidableEq, Repr

/-- Reasons to refuse. Every instruction of the spec has an effect, so none is left. -/
inductive Refusal where
  /-- Raised by an arm of `exec` whose instruction has no meaning yet; no arm does. Safe. -/
  | notModelled (mnemonic : String)
  deriving DecidableEq, Repr

/-- The outcome of a cycle. -/
abbrev Out := Host.Outcome State Fault Refusal

/-- R23: the state after `initialize()` or `reset()`. Memory lists nothing: every byte is at its reset contents. -/
def State.reset : State where
  mem := []
  regs := Vector.replicate 16 0
  idx := 0
  pc := BitVec.ofNat 16 Config.progBase
  stack := Vector.replicate 16 0
  sp := 0
  disp := Vector.replicate 32 (Vector.replicate 64 false)
  keys := Vector.replicate 16 false
  dt := 0
  st := 0
  draws := 0

end Sys2Proof.Machine
end

