-- ==== Sys2Proof/Machine/Memory.lean ====
section
/-! DEFINITION. `mem` as a list of cells in one canonical form (spec/10_state.md R16, spec/20_memory.md R36,
R40). These operations take any address; the bounds check of R37 is in Ops.lean and comes before them. -/

namespace Sys2Proof.Machine

/-- R23, R40: what the byte at an address is after reset, and so what an unlisted address reads as: the font
in its 80 bytes, zero elsewhere. -/
def Memory.background (a : Nat) : Byte :=
  if Config.fontBase ≤ a ∧ a < Config.fontBase + Config.fontLen then Config.font (a - Config.fontBase) else 0

/-- The byte at an address (R36: the last value written there, else its reset contents). -/
def Memory.read : Memory → Nat → Byte
  | [], a => Memory.background a
  | (b, v) :: m, a => if a = b then v else Memory.read m a

/-- The list without the cell at an address. -/
def Memory.erase : Memory → Nat → Memory
  | [], _ => []
  | (b, u) :: m, a => if a = b then m else (b, u) :: Memory.erase m a

/-- The list with the cell at an address set, in address order. -/
def Memory.insert : Memory → Nat → Byte → Memory
  | [], a, v => [(a, v)]
  | (b, u) :: m, a, v =>
    if a < b then (a, v) :: (b, u) :: m
    else if a = b then (a, v) :: m
    else (b, u) :: Memory.insert m a v

/-- R7: `mem[a] <- v`, keeping the canonical form: a byte at its reset contents is not listed. -/
def Memory.write (m : Memory) (a : Nat) (v : Byte) : Memory :=
  if v = Memory.background a then Memory.erase m a else Memory.insert m a v

/-- Bytes written at ascending addresses from `a` (R39). -/
def Memory.writeBytes : Memory → Nat → List Byte → Memory
  | m, _, [] => m
  | m, a, v :: vs => Memory.writeBytes (Memory.write m a v) (a + 1) vs

/-- The `n` bytes from `a` upward. -/
def Memory.readBytes : Memory → Nat → Nat → List Byte
  | _, _, 0 => []
  | m, a, n + 1 => Memory.read m a :: Memory.readBytes m (a + 1) n

/-- The canonical form: addresses strictly rising and in the address space, no byte listed at its reset
contents. -/
abbrev Memory.wf (m : Memory) : Prop :=
  m.Pairwise (fun c d => c.1 < d.1) ∧ ∀ c ∈ m, c.1 < Config.memSize ∧ c.2 ≠ Memory.background c.1

end Sys2Proof.Machine
end

