-- ==== Sys2Proof/Machine/Ops.lean ====
section
/-! DEFINITION. The named operations over the state: registers, call stack, program counter, bounds-checked
memory access, instruction fetch, and raising an error. -/

namespace Sys2Proof.Machine

/-! ## Registers and single fields -/

/-- R6: `V[i]`. -/
def State.v (s : State) (i : Reg) : Byte := s.regs[i.val]

/-- R6: `V[i] <- b`. -/
def State.setV (s : State) (i : Reg) (b : Byte) : State := { s with regs := s.regs.set i.val b }

/-- All sixteen general registers at once. -/
def State.setRegs (s : State) (r : Regs) : State := { s with regs := r }

/-- R6: `I <- w`. -/
def State.setIdx (s : State) (w : Word) : State := { s with idx := w }

/-- R6: `pc <- w`. -/
def State.setPc (s : State) (w : Word) : State := { s with pc := w }

/-- The memory replaced. -/
def State.setMem (s : State) (m : Memory) : State := { s with mem := m }

/-- The display replaced. -/
def State.setDisp (s : State) (d : Display) : State := { s with disp := d }

/-- The key vector replaced. -/
def State.setKeys (s : State) (k : Keys) : State := { s with keys := k }

/-- `DT <- b`. -/
def State.setDt (s : State) (b : Byte) : State := { s with dt := b }

/-- `ST <- b`. -/
def State.setSt (s : State) (b : Byte) : State := { s with st := b }

/-- One more random byte has been consumed (log entry 1). -/
def State.countDraw (s : State) : State := { s with draws := s.draws + 1 }

/-- The byte of memory at an address. -/
def State.byte (s : State) (a : Nat) : Byte := s.mem.read a

/-- R6: `disp[r][c]`. -/
def State.pixel (s : State) (r : Fin 32) (c : Fin 64) : Bool := s.disp[r.val][c.val]

/-- R6: `keys[k]`. -/
def State.key (s : State) (k : Fin 16) : Bool := s.keys[k.val]

/-- R6: `stack[k]`. -/
def State.entry (s : State) (k : Fin 16) : Word := s.stack[k.val]

/-- `V[k], V[k+1], … <- bs` for the registers there are (R111: ascending from `V[0]`). -/
def Regs.load : Regs → Nat → List Byte → Regs
  | r, _, [] => r
  | r, k, b :: bs => Regs.load (r.setIfInBounds k b) (k + 1) bs

/-- `V[0]` to `V[x]`, ascending (R110). -/
def State.regsUpTo (s : State) (x : Reg) : List Byte := s.regs.toList.take (x.val + 1)

/-! ## The program counter -/

/-- R67: the advance of the fetch stage, `pc <- A + 2`. -/
def State.advance (s : State) : State := s.setPc (s.pc + BitVec.ofNat 16 Config.instrBytes)

/-- R85: a skip advances `pc` by a further 2 when its condition holds. -/
def State.skipIf (s : State) (c : Bool) : State := if c then s.advance else s

/-- R123: back to the instruction's own address, `pc <- pc - 2`. -/
def State.rewind (s : State) : State := s.setPc (s.pc - BitVec.ofNat 16 Config.instrBytes)

/-- R6: inside an instruction rule the executing instruction stands at `pc - 2`. -/
def State.instrAddr (s : State) : Word := s.pc - BitVec.ofNat 16 Config.instrBytes

/-! ## Raising an error -/

/-- R8, R146: `raise`. The operation ends with the error as its outcome. Nothing is saved, no mode changes and
control goes nowhere in the machine; what the pseudocode did before is discarded, so the state stays the one
the operation began with. A fault carries no state, for that reason (log entry 6). -/
def raise (f : Fault) : Out := .fault f

/-- R140: the numeric code of an error kind (the spec's choice, D4; log entry 7). -/
def Fault.code : Fault → Nat
  | .programTooLarge _ => 1
  | .invalidKeyIndex _ => 2
  | .illegalInstruction _ => 3
  | .stackOverflow _ => 4
  | .stackUnderflow _ => 5
  | .memoryFault _ => 6

/-- R140: the information value of an error (the spec's choice but for `IllegalInstruction`, D4). -/
def Fault.info : Fault → Nat
  | .programTooLarge n => n
  | .invalidKeyIndex k => k
  | .illegalInstruction w => w.toNat
  | .stackOverflow a => a.toNat
  | .stackUnderflow a => a.toNat
  | .memoryFault a => a

/-! ## The call stack (R15) -/

/-- Push: `stack[sp] <- v; sp <- sp + 1`, when fewer than 16 entries are in use. -/
def State.push (s : State) (v : Word) (h : s.sp.val < 16) : State :=
  { s with stack := s.stack.set s.sp.val v, sp := ⟨s.sp.val + 1, by omega⟩ }

/-- Pop: `sp <- sp - 1`. The entry keeps its value (D19). -/
def State.drop (s : State) : State := { s with sp := ⟨s.sp.val - 1, by omega⟩ }

/-- The newest entry, `stack[sp - 1]`, when there is one. -/
def State.top (s : State) (_h : s.sp.val ≠ 0) : Word := s.stack[s.sp.val - 1]

/-! ## Bounds-checked access (R37, R38) -/

/-- The `count` addresses from `base` are all in memory. The sum is unbounded: no wrap at 12 or 16 bits (D8).
With `count = 0` no address is used. -/
def inBounds (base count : Nat) : Bool := count == 0 || decide (base + count ≤ Config.memSize)

/-- R38: all addresses are checked before any effect. Out of bounds, `MemoryFault` with the lowest
out-of-bounds address. -/
def guardAccess (base count : Nat) (k : Out) : Out :=
  if inBounds base count then k else raise (.memoryFault (max base Config.memSize))

/-- Bytes stored at ascending addresses from `base`. -/
def State.storeBytes (s : State) (base : Nat) (bs : List Byte) : Out :=
  guardAccess base bs.length (.next (s.setMem (s.mem.writeBytes base bs)))

/-- `count` bytes loaded from ascending addresses from `base`, and what is done with them. -/
def State.loadBytes (s : State) (base count : Nat) (k : List Byte → Out) : Out :=
  guardAccess base count (k (s.mem.readBytes base count))

/-! ## Instruction fetch (R30, R66) -/

/-- R66: a fetch needs `pc` and `pc + 1` in memory. -/
def State.fetchable (s : State) : Bool := inBounds s.pc.toNat Config.instrBytes

/-- R30: `mem[pc] ∥ mem[pc + 1]`, at any parity of `pc` (R34). -/
def State.fetchWord (s : State) : Word := wordOfBytes (s.byte s.pc.toNat) (s.byte (s.pc.toNat + 1))

/-- The state whose next fetch reads `w`: `w` stored big-endian at `pc`. Where `pc` cannot be fetched from,
`pc` is first set to the load address (log entry 14). -/
def State.placeWord (s : State) (w : Word) : State :=
  let t := if s.fetchable then s else s.setPc (BitVec.ofNat 16 Config.progBase)
  t.setMem (t.mem.writeBytes t.pc.toNat [highByte w, lowByte w])

end Sys2Proof.Machine
end

