-- ==== Sys2Proof/Machine/Operands.lean ====
section
/-! DEFINITION. The operand forms: immediates (spec/30_encoding.md R52), the one addressing mode
(spec/44_index_memory.md R105), the coordinates and bits of a sprite (spec/45_display.md R115), key numbers
(spec/46_keys_timers.md R121, R123). -/

namespace Sys2Proof.Machine

/-- R52: `zext_16(nnn)`. -/
def zextAddr (nnn : Addr) : Word := BitVec.ofNat 16 nnn.toNat

/-- R52: `zext_16(b)`. -/
def zextByte (b : Byte) : Word := BitVec.ofNat 16 b.toNat

/-- R79: `zext_16(nnn) + zext_16(V[0])`, not reduced to 12 bits (D7). -/
def State.offsetTarget (s : State) (nnn : Addr) : Word := zextAddr nnn + zextByte (s.v 0)

/-- R37, R105: the effective address `I + k` at `k = 0`, as a natural number; offsets are added without
wraparound. -/
def State.base (s : State) : Nat := s.idx.toNat

/-- R108: the address of the glyph for the low nibble of a byte. -/
def glyphAddr (b : Byte) : Word := BitVec.ofNat 16 (Config.fontBase + Config.glyphRows * (b.toNat % 16))

/-- R109: the hundreds, tens and ones of a byte, in the order they are stored. -/
def bcdDigits (b : Byte) : List Byte :=
  [BitVec.ofNat 8 (b.toNat / 100), BitVec.ofNat 8 (b.toNat / 10 % 10), BitVec.ofNat 8 (b.toNat % 10)]

/-- R117: a row, wrapped modulo `H`. -/
def wrapRow (n : Nat) : Fin 32 := Fin.ofNat 32 n

/-- R117: a column, wrapped modulo `W`. -/
def wrapCol (n : Nat) : Fin 64 := Fin.ofNat 64 n

/-- R115: the pixel of a sprite row at column offset `c`: bit `7 - c` of its byte (D10, log entry 4). -/
def spriteBit (b : Byte) (c : Nat) : Bool := b.getLsbD (7 - c)

/-- R121: the key a byte names, if it names one. -/
def keyOf (b : Byte) : Option (Fin 16) := if h : b.toNat < 16 then some ⟨b.toNat, h⟩ else none

/-- R123: the least pressed key, if any is pressed. -/
def State.firstPressed (s : State) : Option (Fin 16) := (List.finRange 16).find? s.key

end Sys2Proof.Machine
end

