-- ==== Sys2Proof/Machine/Flags.lean ====
section
/-! DEFINITION. The results of the ALU multiplexer (spec/30_encoding.md R60) and every flag the spec computes
(spec/10_state.md R12). Sums and differences are taken over the integers and narrowed once (spec/00_scope.md R5). -/

namespace Sys2Proof.Machine

/-- R12: the flag register `VF`, `V[15]`. -/
def flagReg : Reg := 15

/-- R5: `b2n(c)`, 1 when the condition holds and 0 when it does not. -/
def b2n (c : Bool) : Byte := if c then 1 else 0

/-- `(a + b) mod 256`. -/
def sumByte (a b : Byte) : Byte := BitVec.ofNat 8 (a.toNat + b.toNat)

/-- `(a - b) mod 256`. -/
def diffByte (a b : Byte) : Byte := BitVec.ofInt 8 ((a.toNat : Int) - (b.toNat : Int))

/-- `(I + b) mod 65536` (R107). -/
def sumIdx (i : Word) (b : Byte) : Word := BitVec.ofNat 16 (i.toNat + b.toNat)

/-- R96: the addition overflowed 8 bits. -/
def carry (a b : Byte) : Bool := decide (a.toNat + b.toNat ≥ 256)

/-- R97, R99: no borrow occurred in `a - b`. -/
def noBorrow (a b : Byte) : Bool := decide (a.toNat ≥ b.toNat)

/-- R98: bit 0 before the shift, as 0 or 1. -/
def lowBit (a : Byte) : Byte := a &&& 0x01

/-- R100: bit 7 before the shift, as 0 or 1. -/
def highBit (a : Byte) : Byte := a >>> 7

/-- R98: the logical shift right by one. -/
def shiftRight (a : Byte) : Byte := a >>> 1

/-- R100: `(a << 1) mod 256`. -/
def shiftLeft (a : Byte) : Byte := a <<< 1

/-- R12: the flag written. -/
def State.setFlag (s : State) (c : Bool) : State := s.setV flagReg (b2n c)

end Sys2Proof.Machine
end

