-- ==== Sys2Proof/Machine/Alu.lean ====
section
/-! DEFINITION. Register loads, arithmetic, logic, shifts, random byte (spec/43_alu.md). Operands are read
first; writes happen in the order of the source's sentence, and R102 says what that leaves when `x = 15`. -/

namespace Sys2Proof.Machine

/-- R90. -/
def execLdI (x : Reg) (nn : Byte) (s : State) : Out := .next (s.setV x nn)

/-- R91: no flag. -/
def execAddI (x : Reg) (nn : Byte) (s : State) : Out := .next (s.setV x (sumByte (s.v x) nn))

/-- R92. -/
def execLdR (x y : Reg) (s : State) : Out := .next (s.setV x (s.v y))

/-- R93: no flag. -/
def execOrR (x y : Reg) (s : State) : Out := .next (s.setV x (s.v x ||| s.v y))

/-- R94: no flag. -/
def execAndR (x y : Reg) (s : State) : Out := .next (s.setV x (s.v x &&& s.v y))

/-- R95: no flag. -/
def execXorR (x y : Reg) (s : State) : Out := .next (s.setV x (s.v x ^^^ s.v y))

/-- R96: result, then flag. -/
def execAddR (x y : Reg) (s : State) : Out :=
  .next ((s.setV x (sumByte (s.v x) (s.v y))).setFlag (carry (s.v x) (s.v y)))

/-- R97: result, then flag. -/
def execSub (x y : Reg) (s : State) : Out :=
  .next ((s.setV x (diffByte (s.v x) (s.v y))).setFlag (noBorrow (s.v x) (s.v y)))

/-- R98: flag, then the shift in place of the register as it then stands (D9, log entry 3). `y` is not read. -/
def execShr (x _y : Reg) (s : State) : Out :=
  let t := s.setV flagReg (lowBit (s.v x))
  .next (t.setV x (shiftRight (t.v x)))

/-- R99: `V[y] - V[x]`; result, then flag. -/
def execSubn (x y : Reg) (s : State) : Out :=
  .next ((s.setV x (diffByte (s.v y) (s.v x))).setFlag (noBorrow (s.v y) (s.v x)))

/-- R100: flag, then the shift in place of the register as it then stands (D9, log entry 3). `y` is not read. -/
def execShl (x _y : Reg) (s : State) : Out :=
  let t := s.setV flagReg (highBit (s.v x))
  .next (t.setV x (shiftLeft (t.v x)))

/-- R101 for a given random byte. -/
def execRndWith (rnd : Byte) (x : Reg) (nn : Byte) (s : State) : Out := .next ((s.setV x (rnd &&& nn)).countDraw)

/-- R101: the byte is the free value of this draw (D12, log entry 1). -/
def execRnd (x : Reg) (nn : Byte) (s : State) : Out := execRndWith (Config.rnd s.draws) x nn s

end Sys2Proof.Machine
end

