-- ==== Sys2Proof/Machine/Display.lean ====
section
/-! DEFINITION. The display instructions (spec/45_display.md). -/

namespace Sys2Proof.Machine

/-- R116: every pixel unlit. -/
def clearDisplay : Display := Vector.replicate 32 (Vector.replicate 64 false)

/-- The frame buffer so far and whether a lit pixel has been unlit: `disp` and `hit` of R117. -/
abbrev Drawing := Display × Bool

/-- R117: toggle one pixel; a pixel that was lit sets `hit`. -/
def togglePixel (g : Drawing) (r : Fin 32) (c : Fin 64) : Drawing :=
  (g.1.set r.val (g.1[r.val].set c.val (!g.1[r.val][c.val])), g.2 || g.1[r.val][c.val])

/-- R117, the inner loop: column offsets `8 - k` to 7 of one sprite row. -/
def drawCols (row : Fin 32) (ox : Nat) (b : Byte) : Nat → Drawing → Drawing
  | 0, g => g
  | k + 1, g =>
    let c := 7 - k
    drawCols row ox b k (if spriteBit b c then togglePixel g row (wrapCol (ox + c)) else g)

/-- R117, the outer loop: sprite rows from row `oy` down. -/
def drawRows (ox : Nat) : Nat → List Byte → Drawing → Drawing
  | _, [], g => g
  | oy, b :: bs, g => drawRows ox (oy + 1) bs (drawCols (wrapRow oy) ox b 8 g)

/-- R117: the sprite at its origin, taken modulo `W` and `H`, on a display. -/
def drawSprite (vx vy : Byte) (bs : List Byte) (d : Display) : Drawing :=
  drawRows (vx.toNat % Config.width) (vy.toNat % Config.height) bs (d, false)

/-- R116. -/
def execCls (s : State) : Out := .next (s.setDisp clearDisplay)

/-- R117: the origin is read before the flag is written (D10, log entry 4). -/
def execDrw (x y : Reg) (n : Nibble) (s : State) : Out :=
  s.loadBytes s.base n.val fun bs =>
    let g := drawSprite (s.v x) (s.v y) bs s.disp
    .next ((s.setDisp g.1).setFlag g.2)

end Sys2Proof.Machine
end

