-- ==== Sys2Proof/Machine/Flow.lean ====
section
/-! DEFINITION. No-op, jumps, call, return (spec/41_flow.md). In every meaning `pc` is already the address of
the instruction plus 2 (spec/40_cycle.md R67, R69). -/

namespace Sys2Proof.Machine

/-- R76: nothing. -/
def execNop (s : State) : Out := .next s

/-- R77: return. The entry popped is not cleared and the target is not checked. -/
def execRet (s : State) : Out :=
  if h : s.sp.val ≠ 0 then .next (s.drop.setPc (s.top h)) else raise (.stackUnderflow s.instrAddr)

/-- R78: jump. -/
def execJp (nnn : Addr) (s : State) : Out := .next (s.setPc (zextAddr nnn))

/-- R80: call. The value pushed is the advanced `pc`, the address after the call. -/
def execCall (nnn : Addr) (s : State) : Out :=
  if h : s.sp.val < Config.stackDepth then .next ((s.push s.pc h).setPc (zextAddr nnn))
  else raise (.stackOverflow s.instrAddr)

/-- R79: jump with offset; always `V[0]`. -/
def execJpV0 (nnn : Addr) (s : State) : Out := .next (s.setPc (s.offsetTarget nnn))

end Sys2Proof.Machine
end

