-- ==== Sys2Proof/Machine/IndexMemory.lean ====
section
/-! DEFINITION. Index register, font address, BCD, register store and load (spec/44_index_memory.md). No
instruction here changes `I` but `Annn`, `Fx1E`, `Fx29`, and none writes a flag. -/

namespace Sys2Proof.Machine

/-- R106. -/
def execLdIdx (nnn : Addr) (s : State) : Out := .next (s.setIdx (zextAddr nnn))

/-- R107: 16-bit wraparound, no flag. -/
def execAddIdx (x : Reg) (s : State) : Out := .next (s.setIdx (sumIdx s.idx (s.v x)))

/-- R108: an address only; no memory access. -/
def execLdF (x : Reg) (s : State) : Out := .next (s.setIdx (glyphAddr (s.v x)))

/-- R109. -/
def execLdB (x : Reg) (s : State) : Out := s.storeBytes s.base (bcdDigits (s.v x))

/-- R110. -/
def execStRegs (x : Reg) (s : State) : Out := s.storeBytes s.base (s.regsUpTo x)

/-- R111. -/
def execLdRegs (x : Reg) (s : State) : Out :=
  s.loadBytes s.base (x.val + 1) (fun bs => .next (s.setRegs (s.regs.load 0 bs)))

end Sys2Proof.Machine
end

