-- ==== Sys2Proof/Machine/KeysTimers.lean ====
section
/-! DEFINITION. Key and timer instructions (spec/46_keys_timers.md). -/

namespace Sys2Proof.Machine

/-- R121, R122: what is done with the level of the key a byte names; a byte that names none raises
`InvalidKeyIndex` (D11, log entry 5). -/
def State.withKey (s : State) (b : Byte) (k : Bool → Out) : Out :=
  match keyOf b with
  | some i => k (s.key i)
  | none => raise (.invalidKeyIndex b.toNat)

/-- R121. -/
def execSkp (x : Reg) (s : State) : Out := s.withKey (s.v x) fun pressed => .next (s.skipIf pressed)

/-- R122. -/
def execSknp (x : Reg) (s : State) : Out := s.withKey (s.v x) fun pressed => .next (s.skipIf !pressed)

/-- R123: the least pressed key, or the same instruction again. -/
def execLdVxK (x : Reg) (s : State) : Out :=
  match s.firstPressed with
  | some k => .next (s.setV x (BitVec.ofNat 8 k.val))
  | none => .next s.rewind

/-- R124. -/
def execLdVxDt (x : Reg) (s : State) : Out := .next (s.setV x s.dt)

/-- R125. -/
def execLdDtVx (x : Reg) (s : State) : Out := .next (s.setDt (s.v x))

/-- R126. -/
def execLdStVx (x : Reg) (s : State) : Out := .next (s.setSt (s.v x))

end Sys2Proof.Machine
end

