-- ==== Sys2Proof/Machine/Skips.lean ====
section
/-! DEFINITION. Conditional skips on registers (spec/42_skips.md). -/

namespace Sys2Proof.Machine

/-- R86. -/
def execSeI (x : Reg) (nn : Byte) (s : State) : Out := .next (s.skipIf (s.v x == nn))

/-- R87. -/
def execSneI (x : Reg) (nn : Byte) (s : State) : Out := .next (s.skipIf (s.v x != nn))

/-- R88. -/
def execSeR (x y : Reg) (s : State) : Out := .next (s.skipIf (s.v x == s.v y))

/-- R89. -/
def execSneR (x y : Reg) (s : State) : Out := .next (s.skipIf (s.v x != s.v y))

end Sys2Proof.Machine
end

