-- ==== Sys2Proof/Machine/Dispatch.lean ====
section
/-! DEFINITION. One arm per instruction (spec/40_cycle.md R69). -/

namespace Sys2Proof.Machine

/-- The execute stage: an instruction's rule applied to the state whose `pc` is already advanced. -/
def exec (i : Instr) (s : State) : Host.Outcome State Fault Refusal :=
  match i with
  | .nop => Sys2Proof.Machine.execNop s
  | .cls => Sys2Proof.Machine.execCls s
  | .ret => Sys2Proof.Machine.execRet s
  | .jp nnn => Sys2Proof.Machine.execJp nnn s
  | .call nnn => Sys2Proof.Machine.execCall nnn s
  | .seI x nn => Sys2Proof.Machine.execSeI x nn s
  | .sneI x nn => Sys2Proof.Machine.execSneI x nn s
  | .seR x y => Sys2Proof.Machine.execSeR x y s
  | .ldI x nn => Sys2Proof.Machine.execLdI x nn s
  | .addI x nn => Sys2Proof.Machine.execAddI x nn s
  | .ldR x y => Sys2Proof.Machine.execLdR x y s
  | .orR x y => Sys2Proof.Machine.execOrR x y s
  | .andR x y => Sys2Proof.Machine.execAndR x y s
  | .xorR x y => Sys2Proof.Machine.execXorR x y s
  | .addR x y => Sys2Proof.Machine.execAddR x y s
  | .sub x y => Sys2Proof.Machine.execSub x y s
  | .shr x y => Sys2Proof.Machine.execShr x y s
  | .subn x y => Sys2Proof.Machine.execSubn x y s
  | .shl x y => Sys2Proof.Machine.execShl x y s
  | .sneR x y => Sys2Proof.Machine.execSneR x y s
  | .ldIdx nnn => Sys2Proof.Machine.execLdIdx nnn s
  | .jpV0 nnn => Sys2Proof.Machine.execJpV0 nnn s
  | .rnd x nn => Sys2Proof.Machine.execRnd x nn s
  | .drw x y n => Sys2Proof.Machine.execDrw x y n s
  | .skp x => Sys2Proof.Machine.execSkp x s
  | .sknp x => Sys2Proof.Machine.execSknp x s
  | .ldVxDt x => Sys2Proof.Machine.execLdVxDt x s
  | .ldVxK x => Sys2Proof.Machine.execLdVxK x s
  | .ldDtVx x => Sys2Proof.Machine.execLdDtVx x s
  | .ldStVx x => Sys2Proof.Machine.execLdStVx x s
  | .addIdx x => Sys2Proof.Machine.execAddIdx x s
  | .ldF x => Sys2Proof.Machine.execLdF x s
  | .ldB x => Sys2Proof.Machine.execLdB x s
  | .stRegs x => Sys2Proof.Machine.execStRegs x s
  | .ldRegs x => Sys2Proof.Machine.execLdRegs x s

end Sys2Proof.Machine
end

