-- ==== Sys2Proof/Machine/Cycle.lean ====
section
/-! DEFINITION. The cycle (spec/40_cycle.md R65 to R71). -/

namespace Sys2Proof.Machine

/-- R70: fetch, advance, decode, execute, with `run` as the execute stage. The first stage that raises decides
(spec/60_exceptions.md R147), and the error leaves no trace of the advance: a fault carries no state. -/
def cycleWith (run : Instr → State → Out) (s : State) : Out :=
  guardAccess s.pc.toNat Config.instrBytes <|
    match decodeWord s.fetchWord with
    | some i => run i s.advance
    | none => raise (.illegalInstruction s.fetchWord)

/-- The execute stage for a given random byte: only `Cxnn` uses it (R71). -/
def execWithInput (rnd : Byte) (i : Instr) (s : State) : Out :=
  match i with
  | .rnd x nn => execRndWith rnd x nn s
  | i => exec i s

/-- R70, R71: `run_cycle` as the spec writes it, a function of the state and of the byte `rnd`. -/
def runCycle (rnd : Byte) (s : State) : Out := cycleWith (execWithInput rnd) s

end Sys2Proof.Machine
end

