-- ==== Sys2Proof/Machine/Step.lean ====
section
/-! DEFINITION. One step of the machine, and the state whose next step runs a given word. -/

namespace Sys2Proof.Machine

/-- One cycle, the random byte being the free value of the next draw (log entry 1). -/
def step (s : State) : Host.Outcome State Fault Refusal := cycleWith exec s

/-- `s` with the opcode table's word `w` stored where the next step fetches (log entry 14). -/
def State.withFetchWord (s : State) (nbits w : Nat) : State := s.placeWord (tableWord nbits w)

end Sys2Proof.Machine
end

