-- ==== Sys2Proof/Machine/HostOps.lean ====
section
/-! DEFINITION. The operations of the block's boundary (spec/50_host_operations.md R130; spec/60_exceptions.md
R155, R156; spec/70_reset_and_hazards.md R165). Each is one atomic transition; a history is any list of them
(R131). -/

namespace Sys2Proof.Machine

/-- R130: the seven operations, with their inputs. -/
inductive HostOp where
  /-- R165: `initialize()`, the same operation as `reset()`. -/
  | init
  | reset
  | loadProgram (data : List Byte)
  | runCycle (rnd : Byte)
  | advanceTimers
  | setKeyState (index : Nat) (pressed : Bool)
  | readDisplay
  deriving DecidableEq, Repr

/-- R8: how an operation ends. `refused` is the model's own and no operation answers it. -/
inductive Answer where
  | ok
  | error (f : Fault)
  | refused (r : Refusal)
  deriving DecidableEq, Repr

/-- The state an operation leaves, its answer, and the grid that `read_display` hands out. -/
structure HostResult where
  state : State
  answer : Answer
  view : List Bool
  deriving DecidableEq, Repr

/-- R8: outcome `Ok` with a new state. -/
def accept (s : State) : HostResult := ⟨s, .ok, []⟩

/-- R146: outcome `Error` with the state as it was before the operation. -/
def reject (s : State) (f : Fault) : HostResult := ⟨s, .error f, []⟩

/-- R165: every component at its reset value, whatever the state before. The model's count of draws goes on,
so that the bytes drawn after a reset are not the ones drawn before it (log entry 15). -/
def State.resetBlock (s : State) : State := { State.reset with draws := s.draws }

/-- R132. -/
def State.loadProgram (s : State) (data : List Byte) : HostResult :=
  if data.length > Config.progMax then reject s (.programTooLarge data.length)
  else accept (s.setMem (s.mem.writeBytes Config.progBase data))

/-- R155: one down, not below 0. -/
def tickByte (b : Byte) : Byte := if b = 0 then 0 else b - 1

/-- R155: one tick of both timers. -/
def State.advanceTimers (s : State) : State := (s.setDt (tickByte s.dt)).setSt (tickByte s.st)

/-- R133. -/
def State.setKeyState (s : State) (index : Nat) (pressed : Bool) : HostResult :=
  if h : index < Config.nkeys then accept (s.setKeys (s.keys.set index pressed h))
  else reject s (.invalidKeyIndex index)

/-- R134, R18: the 2048 pixels in row-major order. -/
def State.displayView (s : State) : List Bool := s.disp.toList.flatMap Vector.toList

/-- R156: the sound output. -/
def State.soundActive (s : State) : Bool := decide (0 < s.st.toNat)

/-- R70, R146: a cycle as an operation of the boundary. -/
def ofCycle (s : State) : Out → HostResult
  | .next t => accept t
  | .fault f => reject s f
  | .refused r => ⟨s, .refused r, []⟩

/-- R130: what an operation does. -/
def perform (op : HostOp) (s : State) : HostResult :=
  match op with
  | .init => accept s.resetBlock
  | .reset => accept s.resetBlock
  | .loadProgram data => s.loadProgram data
  | .runCycle rnd => ofCycle s (runCycle rnd s)
  | .advanceTimers => accept s.advanceTimers
  | .setKeyState index pressed => s.setKeyState index pressed
  | .readDisplay => ⟨s, .ok, s.displayView⟩

/-- R131: a history, each operation applied to the state the previous one left, errors included (R148). -/
def performAll : List HostOp → State → State
  | [], s => s
  | op :: ops, s => performAll ops (perform op s).state

end Sys2Proof.Machine
end

