-- ==== Sys2Proof/Safety.lean ====
section
/-! DEFINITION. The terms in which claims are stated: which component of the state a transition keeps, which
states a history reaches, the invariant of those states, and what a safe run and a finished run are. -/

namespace Sys2Proof.Machine

/-! ## Frames -/

/-- The components of the state. -/
inductive Part where
  | mem | regs | idx | pc | stack | disp | keys | dt | st | draws
  deriving DecidableEq, Repr

/-- A component is the same in two states. Memory is compared byte by byte, through `State.byte`; `stack` is
the entries and the pointer together. -/
def Keeps (p : Part) (s t : State) : Prop :=
  match p with
  | .mem => ∀ a, t.byte a = s.byte a
  | .regs => ∀ i, t.v i = s.v i
  | .idx => t.idx = s.idx
  | .pc => t.pc = s.pc
  | .stack => t.sp = s.sp ∧ ∀ k, t.entry k = s.entry k
  | .disp => ∀ r c, t.pixel r c = s.pixel r c
  | .keys => ∀ k, t.key k = s.key k
  | .dt => t.dt = s.dt
  | .st => t.st = s.st
  | .draws => t.draws = s.draws

/-- Every component but those listed is the same. -/
def KeepsAllBut (ps : List Part) (s t : State) : Prop := ∀ p, p ∉ ps → Keeps p s t

/-- Every general register but those listed is the same. -/
def KeepsRegsBut (is : List Reg) (s t : State) : Prop := ∀ i, i ∉ is → t.v i = s.v i

/-- Every byte of memory outside `[base, base + n)` is the same. -/
def KeepsBytesOutside (base n : Nat) (s t : State) : Prop :=
  ∀ a, ¬(base ≤ a ∧ a < base + n) → t.byte a = s.byte a

/-- R12, R21: the general registers an instruction may write: its destination `x`, the flag register where the
instruction writes the flag, and `V[0]` to `V[x]` for `Fx65`. -/
def mayWriteReg (i : Instr) (r : Reg) : Prop :=
  match i with
  | .nop | .cls | .ret | .jp _ | .call _ | .seI _ _ | .sneI _ _ | .seR _ _ | .sneR _ _ | .ldIdx _ | .jpV0 _
  | .skp _ | .sknp _ | .ldDtVx _ | .ldStVx _ | .addIdx _ | .ldF _ | .ldB _ | .stRegs _ => False
  | .ldI x _ | .addI x _ | .ldR x _ | .orR x _ | .andR x _ | .xorR x _ | .rnd x _ | .ldVxDt x | .ldVxK x => r = x
  | .addR x _ | .sub x _ | .shr x _ | .subn x _ | .shl x _ => r = x ∨ r = 15
  | .drw _ _ _ => r = 15
  | .ldRegs x => r ≤ x

/-- When an instruction runs to its end, `s` being the state its rule is applied to: always, but for the
conditions of R77, R80, R109 to R111, R117, R121, R122. -/
def completes (i : Instr) (s : State) : Prop :=
  match i with
  | .ret => 0 < s.sp.val
  | .call _ => s.sp.val < 16
  | .drw _ _ n => n.val = 0 ∨ s.base + n.val ≤ 4096
  | .ldB _ => s.base + 2 < 4096
  | .stRegs x | .ldRegs x => s.base + x.val < 4096
  | .skp x | .sknp x => (s.v x).toNat < 16
  | .nop | .cls | .jp _ | .seI _ _ | .sneI _ _ | .seR _ _ | .ldI _ _ | .addI _ _ | .ldR _ _ | .orR _ _ | .andR _ _
  | .xorR _ _ | .addR _ _ | .sub _ _ | .shr _ _ | .subn _ _ | .shl _ _ | .sneR _ _ | .ldIdx _ | .jpV0 _ | .rnd _ _
  | .ldVxDt _ | .ldVxK _ | .ldDtVx _ | .ldStVx _ | .addIdx _ | .ldF _ => True

/-- R14: the instructions that may leave `pc` other than at the next instruction. -/
def transfersControl (i : Instr) : Prop :=
  match i with
  | .ret | .jp _ | .call _ | .jpV0 _ | .seI _ _ | .sneI _ _ | .seR _ _ | .sneR _ _ | .skp _ | .sknp _ | .ldVxK _ => True
  | .nop | .cls | .ldI _ _ | .addI _ _ | .ldR _ _ | .orR _ _ | .andR _ _ | .xorR _ _ | .addR _ _ | .sub _ _
  | .shr _ _ | .subn _ _ | .shl _ _ | .ldIdx _ | .rnd _ _ | .drw _ _ _ | .ldVxDt _ | .ldDtVx _ | .ldStVx _
  | .addIdx _ | .ldF _ | .ldB _ | .stRegs _ | .ldRegs _ => False

/-- R117: the sprite of `n` rows at `I`, with its origin at `(V[x] mod 64, V[y] mod 32)`, has a 1 bit over the
pixel `(r, c)`: bit `7 - j` of its row `k`, at the row `k` down and the column `j` across from the origin, each
wrapped. -/
def SpriteCovers (s : State) (x y : Reg) (n : Nibble) (r : Fin 32) (c : Fin 64) : Prop :=
  ∃ k j : Nat, k < n.val ∧ j < 8 ∧ r.val = ((s.v y).toNat % 32 + k) % 32 ∧
    c.val = ((s.v x).toNat % 64 + j) % 64 ∧ (s.byte (s.base + k)).getLsbD (7 - j) = true

/-! ## Reachable states -/

/-- R166: a history begins with a reset; R131: then any operation may follow any other. -/
inductive Reachable : State → Prop where
  | reset : Reachable State.reset
  | op {s : State} (op : HostOp) : Reachable s → Reachable (perform op s).state

/-- R24: what holds of every reachable state. That `sp` is 0 to 16 and that every value fits its width is in
the fields' types. -/
abbrev State.Inv (s : State) : Prop :=
  s.mem.wf ∧ s.pc.toNat ≤ 0x10FE ∧
    ∀ k : Fin 16, s.entry k = 0 ∨ 2 ≤ (s.entry k).toNat ∧ (s.entry k).toNat ≤ 0x1000

/-! ## Safe and finished runs -/

/-- The next cycle ends `Ok`. -/
def Proceeds (s : State) : Prop := ∃ t, step s = .next t

/-- R148: `n` cycles, none of which ends in an error. -/
def SafeFor (n : Nat) (s : State) : Prop := ∃ t, Host.Core.run Sys2Proof.core n s = .next t

/-- R176: the machine stands at a jump to its own address `e`. -/
def AtEnd (e : Addr) (s : State) : Prop := s.pc = zextAddr e ∧ s.fetchable ∧ s.fetchWord = encode (.jp e)

/-- R127: the machine stands at a key wait and no key is pressed. -/
def AtKeyWait (s : State) : Prop :=
  s.fetchable ∧ (∃ x, decodeWord s.fetchWord = some (.ldVxK x)) ∧ ∀ k, s.key k = false

end Sys2Proof.Machine
end

