-- ==== Sys2Proof/Certificates/Slice0/Obligations.lean ====
section
/-! DEFINITION. The statements for the provers. Each docstring names the rule it formalises; where a clause rests
on a decision the spec marks as its own or on a choice of the model, it says so. `exec` is stated at the state
its rule is applied to, where `pc` is already the instruction's address plus 2 (spec/40_cycle.md R67, R69);
`StepRunsTheDecodedInstruction` connects it to `step`. -/

open Sys2Proof Sys2Proof.Machine

/-! ## Encoding -/

/-- R53, R55: decoding the word of an instruction gives it back, with every operand, and so does decoding its two
bytes with anything after them. -/
def Obligations.EncodedInstructionDecodesToItself : Prop :=
  ∀ (i : Instr) (rest : List Byte), decodeWord (encode i) = some i ∧ decode (encodeBytes i ++ rest) = .instr i rest

/-- R53: the other direction; no two words decode to the same instruction (the ignored field of `8xy6`, `8xyE`
is kept as an operand: log entry 18, the model's choice). -/
def Obligations.LegalWordIsItsInstructionsEncoding : Prop :=
  ∀ (w : Word) (i : Instr), decodeWord w = some i → encode i = w

/-- R54, R55, R56: the decoder, written from R53, and the table of match and mask pairs agree on every word: a
word that decodes is admitted by exactly one row, the one with the instruction's label, and an illegal word by
none. -/
def Obligations.DecoderAgreesWithTheOpcodeTable : Prop :=
  ∀ w : Word, (rowsOf w).map (·.label) = (decodeWord w).toList.map Instr.label

/-- R56, R143: the illegal words are exactly those listed; each ends the cycle with `IllegalInstruction` and the
word; no other word does. R146: the state after is the one before, `pc` included, which is the spec's decision D3
(log entry 6). -/
def Obligations.IllegalWordsAreExactlyThoseListed : Prop :=
  (∀ w : Word, decodeWord w = none ↔
    (fieldOp w = 0x0 ∧ slice w 11 0 ∉ [0x000, 0x0E0, 0x0EE]) ∨
    (fieldOp w = 0x5 ∧ slice w 3 0 ≠ 0) ∨
    (fieldOp w = 0x8 ∧ slice w 3 0 ∈ [0x8, 0x9, 0xA, 0xB, 0xC, 0xD, 0xF]) ∨
    (fieldOp w = 0x9 ∧ slice w 3 0 ≠ 0) ∨
    (fieldOp w = 0xE ∧ slice w 7 0 ∉ [0x9E, 0xA1]) ∨
    (fieldOp w = 0xF ∧ slice w 7 0 ∉ [0x07, 0x0A, 0x15, 0x18, 0x1E, 0x29, 0x33, 0x55, 0x65])) ∧
  (∀ s : State, s.pc.toNat ≤ 0xFFE → decodeWord s.fetchWord = none →
    step s = .fault (.illegalInstruction s.fetchWord) ∧
    ∀ b, perform (.runCycle b) s = ⟨s, .error (.illegalInstruction s.fetchWord), []⟩) ∧
  ∀ (s : State) (w : Word), step s = .fault (.illegalInstruction w) →
    s.pc.toNat ≤ 0xFFE ∧ w = s.fetchWord ∧ decodeWord w = none

/-- Sanity (spec/95_test_vectors.md Part D): words written out from the patterns of R55, one or more per family,
and what each decodes to. -/
def Obligations.WordsOfEachFamilyDecode : Prop :=
  decodeWord 0x0000#16 = some .nop ∧
  decodeWord 0x00E0#16 = some .cls ∧
  decodeWord 0x00EE#16 = some .ret ∧
  decodeWord 0x2FFF#16 = some (.call 0xFFF#12) ∧
  decodeWord 0x3FFF#16 = some (.seI 15 0xFF#8) ∧
  decodeWord 0x5FF0#16 = some (.seR 15 15) ∧
  decodeWord 0x7ABC#16 = some (.addI 10 0xBC#8) ∧
  decodeWord 0x8AB5#16 = some (.sub 10 11) ∧
  decodeWord 0x8ABE#16 = some (.shl 10 11) ∧
  decodeWord 0xD5A3#16 = some (.drw 5 10 3) ∧
  decodeWord 0xEF9E#16 = some (.skp 15) ∧
  decodeWord 0xFF65#16 = some (.ldRegs 15) ∧
  decodeWord 0x5AB1#16 = none ∧
  decodeWord 0x8AB8#16 = none ∧
  decodeWord 0xF03A#16 = none

/-! ## The cycle -/

/-- R30: the instruction word is `mem[pc] ∥ mem[pc+1]`, the byte at `pc` in bits 15:8; the bytes 0x12, 0x34 are
the word 0x1234; and the same holds of the bytes of a program image that has been loaded. -/
def Obligations.FetchReadsTheWordBigEndian : Prop :=
  (∀ s : State, s.fetchWord.toNat = 256 * (s.byte s.pc.toNat).toNat + (s.byte (s.pc.toNat + 1)).toNat) ∧
  (∀ s : State, s.byte s.pc.toNat = 0x12 → s.byte (s.pc.toNat + 1) = 0x34 → s.fetchWord = 0x1234) ∧
  ∀ (s : State) (data : List Byte) (k : Nat), s.mem.wf → data.length ≤ 3584 → k + 1 < data.length →
    s.pc.toNat = 0x200 + k →
    (perform (.loadProgram data) s).state.fetchWord.toNat =
      256 * (data.getD k 0).toNat + (data.getD (k + 1) 0).toNat

/-- R67, R69: when the word at `pc` decodes to an instruction, the cycle is the instruction's rule applied to the
state that differs only in `pc`, which is 2 further on; `pc` may be odd (R34, the spec's decision D6). -/
def Obligations.StepRunsTheDecodedInstruction : Prop :=
  ∀ (s : State) (i : Instr), s.pc.toNat ≤ 0xFFE → decodeWord s.fetchWord = some i →
    step s = exec i s.advance ∧ s.advance.pc.toNat = s.pc.toNat + 2 ∧ KeepsAllBut [.pc] s s.advance

/-- R66: a fetch at 0xFFF or above ends the cycle with `MemoryFault`, whatever memory holds, and changes nothing.
The address it carries is the spec's decision D4 (log entry 7). -/
def Obligations.FetchOutsideMemoryFaults : Prop :=
  ∀ s : State, 0xFFF ≤ s.pc.toNat →
    step s = .fault (.memoryFault (max s.pc.toNat 4096)) ∧
    ∀ b, perform (.runCycle b) s = ⟨s, .error (.memoryFault (max s.pc.toNat 4096)), []⟩

/-- The model's `withFetchWord` (log entry 14): the next step fetches and runs the word placed, in any state whose
memory is in canonical form. -/
def Obligations.PlacedWordIsTheNextToRun : Prop :=
  ∀ (s : State) (w : Nat) (i : Instr), s.mem.wf → decodeTableWord 16 w = some i →
    step (s.withFetchWord 16 w) = exec i (s.withFetchWord 16 w).advance ∧
    (s.pc.toNat ≤ 0xFFE →
      KeepsAllBut [.mem] s (s.withFetchWord 16 w) ∧ KeepsBytesOutside s.pc.toNat 2 s (s.withFetchWord 16 w))

/-- R71 (the spec's decision D12): `step` is the spec's `run_cycle` with the byte of this draw, a free value
(log entry 1), as its input `rnd`. -/
def Obligations.StepIsRunCycleAtTheDrawnByte : Prop :=
  ∀ s : State, step s = runCycle (Config.rnd s.draws) s

/-- R148, R71: no error depends on the random byte, so a cycle that failed fails again, in the same way, whatever
byte is supplied. -/
def Obligations.FailedCycleFailsAgain : Prop :=
  ∀ (b c : Byte) (s : State) (f : Fault), runCycle b s = .fault f →
    runCycle c s = .fault f ∧ perform (.runCycle c) (perform (.runCycle b) s).state = ⟨s, .error f, []⟩

/-- R69, R145: an instruction answers a next state exactly when its own conditions hold, and a cycle proceeds
exactly when it can fetch, decode and then complete. -/
def Obligations.InstructionsCompleteExactlyWhenTheirConditionsHold : Prop :=
  (∀ (i : Instr) (s : State), (∃ t, exec i s = .next t) ↔ completes i s) ∧
  ∀ s : State, Proceeds s ↔ s.pc.toNat ≤ 0xFFE ∧ ∃ i, decodeWord s.fetchWord = some i ∧ completes i s.advance

/-- R69, R147: nothing is refused, and only the named instructions raise, each one kind of error and only under
its condition. That `Ex9E` and `ExA1` raise is the spec's decision D11, the information values are D4. -/
def Obligations.OnlyTheNamedInstructionsRaise : Prop :=
  ∀ (i : Instr) (s : State), (∀ r, exec i s ≠ .refused r) ∧ ∀ f, exec i s = .fault f →
    (i = .ret ∧ s.sp = 0 ∧ f = .stackUnderflow (s.pc - 2)) ∨
    ((∃ nnn, i = .call nnn) ∧ s.sp = 16 ∧ f = .stackOverflow (s.pc - 2)) ∨
    ((∃ x y n, i = .drw x y n ∧ 0 < n.val ∧ 4096 ≤ s.base + n.val - 1) ∧ f = .memoryFault (max s.base 4096)) ∨
    ((∃ x, i = .ldB x) ∧ 4096 ≤ s.base + 2 ∧ f = .memoryFault (max s.base 4096)) ∨
    ((∃ x, (i = .stRegs x ∨ i = .ldRegs x) ∧ 4096 ≤ s.base + x.val) ∧ f = .memoryFault (max s.base 4096)) ∨
    ∃ x, (i = .skp x ∨ i = .sknp x) ∧ 16 ≤ (s.v x).toNat ∧ f = .invalidKeyIndex (s.v x).toNat

/-! ## Invariants -/

/-- The invariant of R24 holds after reset. -/
def Obligations.ResetMeetsTheInvariant : Prop := State.reset.Inv

/-- R24: a cycle keeps the invariant: memory in canonical form (the model's own), `pc` at most 0x10FE, and every
stack entry 0 or an address after a fetchable instruction. -/
def Obligations.StepKeepsTheInvariant : Prop :=
  ∀ s t : State, s.Inv → step s = .next t → t.Inv

/-- R24, R130: each of the seven operations, with any input, keeps the invariant from every state that meets it,
whether it ends `Ok` or with an error (after which the state is the one before: the spec's decision D3, log entry
6). -/
def Obligations.EveryOperationKeepsTheInvariant : Prop :=
  ∀ (op : HostOp) (s : State), s.Inv → (perform op s).state.Inv

/-- R24: every state that any history of the block's operations reaches from reset meets the invariant. -/
def Obligations.ReachableStatesMeetTheInvariant : Prop := ∀ s : State, Reachable s → s.Inv

/-- Two memories in canonical form that read alike at every address are the same list (the model's own form of
`mem`, R16): a state's memory is determined by its bytes. -/
def Obligations.CanonicalMemoryIsDeterminedByItsBytes : Prop :=
  ∀ m n : Memory, m.wf → n.wf → (∀ a, m.read a = n.read a) → m = n

/-! ## Whole-machine rules -/

/-- R21, R13, R15, R20: only `Annn`, `Fx1E`, `Fx29` write `I`; only `2nnn` and `00EE` touch the call stack; only
`Fx15` writes `DT` and only `Fx18` writes `ST`. The model's count of draws moves only in `Cxnn` (log entry 1). -/
def Obligations.SpecialRegistersHaveOnlyTheirWriters : Prop :=
  ∀ (i : Instr) (s t : State), exec i s = .next t →
    (¬Keeps .idx s t → (∃ nnn, i = .ldIdx nnn) ∨ (∃ x, i = .addIdx x) ∨ ∃ x, i = .ldF x) ∧
    (¬Keeps .stack s t → i = .ret ∨ ∃ nnn, i = .call nnn) ∧
    (¬Keeps .dt s t → ∃ x, i = .ldDtVx x) ∧
    (¬Keeps .st s t → ∃ x, i = .ldStVx x) ∧
    (¬Keeps .draws s t → ∃ x nn, i = .rnd x nn)

/-- R18, R19: no instruction writes a key; only `00E0` and `Dxyn` write the display. -/
def Obligations.KeysAreNeverWrittenAndTheDisplayOnlyByTwo : Prop :=
  ∀ (i : Instr) (s t : State), exec i s = .next t →
    Keeps .keys s t ∧ (¬Keeps .disp s t → i = .cls ∨ ∃ x y n, i = .drw x y n)

/-- R32: only `Fx33` and `Fx55` write memory, the first three bytes from `I`, the second `x + 1`, and no other
byte. -/
def Obligations.MemoryIsWrittenOnlyByTheTwoStores : Prop :=
  ∀ (i : Instr) (s t : State), exec i s = .next t →
    (∃ x, i = .ldB x ∧ KeepsBytesOutside s.base 3 s t) ∨
    (∃ x, i = .stRegs x ∧ KeepsBytesOutside s.base (x.val + 1) s t) ∨
    Keeps .mem s t

/-- R12, R21: an instruction changes no general register but its destination, the flag register where it writes
the flag, and `V[0]` to `V[x]` in `Fx65`. -/
def Obligations.GeneralRegistersAreWrittenOnlyAsDestinations : Prop :=
  ∀ (i : Instr) (s t : State) (r : Reg), exec i s = .next t → ¬mayWriteReg i r → t.v r = s.v r

/-- R14: every instruction that is no jump, call, return, skip or key wait leaves `pc` at the next instruction; a
skip leaves it there or 2 further on. -/
def Obligations.OtherInstructionsLeaveThePcAtTheNext : Prop :=
  ∀ (i : Instr) (s t : State), exec i s = .next t →
    (¬transfersControl i → t.pc = s.pc) ∧
    ((∃ x y, i = .seR x y ∨ i = .sneR x y ∨ i = .skp x ∨ i = .sknp x) ∨ (∃ x nn, i = .seI x nn ∨ i = .sneI x nn) →
      t.pc = s.pc ∨ t.pc = s.pc + 2)

/-- R73, R127: a cycle leaves the whole state as it was exactly in a key wait with no key pressed and in a jump to
the instruction's own address. (R73 says this of `pc` alone; a call or a return to its own address leaves `pc`
and moves `sp`: log entry 20.) -/
def Obligations.CycleChangesNothingOnlyInAWaitOrASelfJump : Prop :=
  ∀ s : State, step s = .next s ↔
    AtKeyWait s ∨
    (s.pc.toNat ≤ 0xFFE ∧ ∃ nnn, decodeWord s.fetchWord = some (.jp nnn) ∧ nnn.toNat = s.pc.toNat) ∨
    (s.pc.toNat ≤ 0xFFE ∧
      ∃ nnn, decodeWord s.fetchWord = some (.jpV0 nnn) ∧ nnn.toNat + (s.v 0).toNat = s.pc.toNat)

/-- R176: once a run stands at a jump to its own address, every cycle ends `Ok`, and no list of cycles, ticks, key
reports and display reads changes anything but the keys and the timers. -/
def Obligations.FinishedRunStaysFinished : Prop :=
  ∀ (e : Addr) (s : State), AtEnd e s →
    (∀ n, SafeFor n s) ∧ (∀ b, perform (.runCycle b) s = ⟨s, .ok, []⟩) ∧
    ∀ ops : List HostOp,
      (∀ op ∈ ops, (∃ b, op = .runCycle b) ∨ op = .advanceTimers ∨ (∃ k p, op = .setKeyState k p) ∨
        op = .readDisplay) →
      AtEnd e (performAll ops s) ∧ KeepsAllBut [.keys, .dt, .st] s (performAll ops s)

/-- R127, R123: a key wait goes on, and nothing but the timers changes, through any list of operations that holds
no reset, no load that is accepted and no accepted report that a key is pressed; so through cycles, ticks, display
reads, reports of release and operations that are rejected (what is rejected is the spec's decision D23, that a
rejection changes nothing D3: log entries 17, 6). A report that a key is pressed ends it in the next cycle, and a
reset ends it at once; a load may, by replacing the instruction. -/
def Obligations.KeyWaitGoesOnUntilAKeyAResetOrALoad : Prop :=
  ∀ s : State, AtKeyWait s →
    (∀ ops : List HostOp,
      (∀ op ∈ ops, (∃ b, op = .runCycle b) ∨ op = .advanceTimers ∨ op = .readDisplay ∨
        (∃ k p, op = .setKeyState k p ∧ (p = false ∨ 16 ≤ k)) ∨
        ∃ data, op = .loadProgram data ∧ 3584 < data.length) →
      AtKeyWait (performAll ops s) ∧ KeepsAllBut [.dt, .st] s (performAll ops s)) ∧
    (∀ (k : Fin 16) (b : Byte),
      (performAll [.setKeyState k.val true, .runCycle b] s).pc.toNat = s.pc.toNat + 2) ∧
    ∀ op ∈ [HostOp.init, HostOp.reset], ¬AtKeyWait (perform op s).state ∧ (perform op s).state.pc = 0x200

/-! ## Reset and the host operations -/

/-- R23, R165: after `initialize` or `reset`, from any state, every component has its documented value; the font
bytes are the parameter `FONT`. `State.reset` is that state. -/
def Obligations.ResetGivesTheDocumentedValues : Prop :=
  ∀ s : State, perform .init s = perform .reset s ∧ (perform .reset s).answer = .ok ∧
    ∀ t ∈ [State.reset, (perform .reset s).state],
      (∀ a, a < 80 → t.byte a = Config.font a) ∧ (∀ a, 80 ≤ a → a ≤ 4095 → t.byte a = 0) ∧
      (∀ i, t.v i = 0) ∧ t.idx = 0 ∧ t.pc = 0x200 ∧ (∀ k, t.entry k = 0) ∧ t.sp = 0 ∧
      (∀ r c, t.pixel r c = false) ∧ (∀ k, t.key k = false) ∧ t.dt = 0 ∧ t.st = 0 ∧ t.soundActive = false

/-- R146 (the spec's decision D3): an operation that ends with an error leaves the state as it was, and none is
refused. -/
def Obligations.FailedOperationLeavesTheState : Prop :=
  ∀ (op : HostOp) (s : State),
    (∀ f, (perform op s).answer = .error f → (perform op s).state = s) ∧
    ∀ r, (perform op s).answer ≠ .refused r

/-- R132: an image of at most 3584 bytes is copied to 0x200 and upward and nothing else changes; a longer one is
rejected whole. That an empty image loads is the spec's decision D21, the error's information D4. -/
def Obligations.LoadCopiesTheImageOrRejectsIt : Prop :=
  ∀ (s : State) (data : List Byte), s.mem.wf →
    (data.length ≤ 3584 →
      (perform (.loadProgram data) s).answer = .ok ∧
      KeepsAllBut [.mem] s (perform (.loadProgram data) s).state ∧
      KeepsBytesOutside 0x200 data.length s (perform (.loadProgram data) s).state ∧
      ∀ k < data.length, (perform (.loadProgram data) s).state.byte (0x200 + k) = data.getD k 0) ∧
    (3584 < data.length → perform (.loadProgram data) s = ⟨s, .error (.programTooLarge data.length), []⟩)

/-- R133: a key report below 16 sets that key's level and nothing else; above it is rejected (the spec's decision
D23). -/
def Obligations.KeyReportSetsOneKey : Prop :=
  ∀ (s : State) (index : Nat) (pressed : Bool),
    (index < 16 →
      (perform (.setKeyState index pressed) s).answer = .ok ∧
      KeepsAllBut [.keys] s (perform (.setKeyState index pressed) s).state ∧
      ∀ k : Fin 16, (perform (.setKeyState index pressed) s).state.key k = if k.val = index then pressed else s.key k) ∧
    (16 ≤ index → perform (.setKeyState index pressed) s = ⟨s, .error (.invalidKeyIndex index), []⟩)

/-- R155: a tick takes 1 from each timer that is not 0, changes nothing else and cannot fail; after `n` ticks a
timer that held `v` holds `v - n`, not below 0. -/
def Obligations.TickCountsBothTimersDown : Prop :=
  ∀ s : State, (perform .advanceTimers s).answer = .ok ∧
    KeepsAllBut [.dt, .st] s (perform .advanceTimers s).state ∧
    ∀ n, (performAll (List.replicate n .advanceTimers) s).dt.toNat = s.dt.toNat - n ∧
      (performAll (List.replicate n .advanceTimers) s).st.toNat = s.st.toNat - n

/-- R134, R18: `read_display` hands out 2048 pixels in row-major order and changes nothing. -/
def Obligations.DisplayIsReadInRowMajorOrder : Prop :=
  ∀ s : State, (perform .readDisplay s).state = s ∧ (perform .readDisplay s).answer = .ok ∧
    (perform .readDisplay s).view.length = 2048 ∧
    ∀ (r : Fin 32) (c : Fin 64), (perform .readDisplay s).view[r.val * 64 + c.val]? = some (s.pixel r c)

/-! ## Flow -/

/-- R76: `0000` does nothing; after the cycle `pc` is 2 further on and every other component is unchanged. -/
def Obligations.NopOnlyAdvances : Prop :=
  decodeWord 0x0000#16 = some .nop ∧ (∀ s : State, exec .nop s = .next s) ∧
  ∀ s : State, s.pc.toNat ≤ 0xFFE → s.fetchWord = 0x0000 →
    ∃ t, step s = .next t ∧ t.pc.toNat = s.pc.toNat + 2 ∧ KeepsAllBut [.pc] s t

/-- R78: `1nnn` sets `pc` to `nnn` and changes nothing else. Targets that are odd or below 0x200 are accepted (the
spec's decisions D6 and D14; log entries 9, 11); the target 0xFFF is accepted and the next fetch faults, with the
address the spec's decision D4 gives (log entry 7). -/
def Obligations.JumpSetsThePc : Prop :=
  ∀ (nnn : Addr) (s : State), decodeWord (packNNN 0x1 nnn) = some (.jp nnn) ∧
    ∃ t, exec (.jp nnn) s = .next t ∧ t.pc.toNat = nnn.toNat ∧ KeepsAllBut [.pc] s t ∧
      (nnn = 0xFFF → step t = .fault (.memoryFault 0x1000))

/-- R79: `Bnnn` sets `pc` to `nnn + V[0]`, not reduced to 12 bits (the spec's decision D7), and changes nothing
else. -/
def Obligations.OffsetJumpAddsRegisterZero : Prop :=
  ∀ (nnn : Addr) (s : State), decodeWord (packNNN 0xB nnn) = some (.jpV0 nnn) ∧
    ∃ t, exec (.jpV0 nnn) s = .next t ∧ t.pc.toNat = nnn.toNat + (s.v 0).toNat ∧ KeepsAllBut [.pc] s t

/-- R80: `2nnn` with fewer than 16 entries pushes the address after it and jumps. Which slot it writes is the
spec's decision D5. -/
def Obligations.CallPushesTheReturnAddress : Prop :=
  ∀ (nnn : Addr) (s : State), decodeWord (packNNN 0x2 nnn) = some (.call nnn) ∧
    (s.sp.val < 16 →
      ∃ t, exec (.call nnn) s = .next t ∧ t.pc.toNat = nnn.toNat ∧ t.sp.val = s.sp.val + 1 ∧
        (∀ k : Fin 16, t.entry k = if k.val = s.sp.val then s.pc else s.entry k) ∧ KeepsAllBut [.pc, .stack] s t)

/-- R77: `00EE` with an entry in use sets `pc` to the newest and drops it; that the entry keeps its value is the
spec's decision D19. -/
def Obligations.ReturnPopsTheNewestEntry : Prop :=
  decodeWord 0x00EE#16 = some .ret ∧
  ∀ s : State, 0 < s.sp.val →
    ∃ t, exec .ret s = .next t ∧ t.sp.val + 1 = s.sp.val ∧
      (∀ k : Fin 16, k.val + 1 = s.sp.val → t.pc = s.entry k) ∧ (∀ k, t.entry k = s.entry k) ∧
      KeepsAllBut [.pc, .stack] s t

/-- R144: a call at depth 16 raises `StackOverflow` and a return at depth 0 `StackUnderflow`, with the address of
the instruction (the spec's decision D4). -/
def Obligations.FullAndEmptyStackRaise : Prop :=
  ∀ s : State,
    (s.sp = 16 → ∀ nnn, exec (.call nnn) s = .fault (.stackOverflow (s.pc - 2))) ∧
    (s.sp = 0 → exec .ret s = .fault (.stackUnderflow (s.pc - 2)))

/-- R81: after a call, a return that finds the same depth and, below it, the same entries goes to the instruction
after the call and restores the depth, whatever else changed in between: a subroutine's own calls and returns, which
leave old values in the entries above, are among it. -/
def Obligations.ReturnUndoesTheCall : Prop :=
  ∀ (nnn : Addr) (s t u : State), exec (.call nnn) s = .next t →
    u.sp = t.sp → (∀ k : Fin 16, k.val < t.sp.val → u.entry k = t.entry k) →
    ∃ v, exec .ret u = .next v ∧ v.pc = s.pc ∧ v.sp = s.sp

/-! ## Skips -/

/-- R86, R87: `3xnn` skips when `V[x] = nn` and `4xnn` when it does not; each changes only `pc`. -/
def Obligations.ImmediateSkipsCompareWithTheByte : Prop :=
  ∀ (x : Reg) (nn : Byte) (s : State),
    decodeWord (packXNN 0x3 x nn) = some (.seI x nn) ∧ decodeWord (packXNN 0x4 x nn) = some (.sneI x nn) ∧
    (∃ t, exec (.seI x nn) s = .next t ∧ t.pc = (if s.v x = nn then s.pc + 2 else s.pc) ∧ KeepsAllBut [.pc] s t) ∧
    ∃ t, exec (.sneI x nn) s = .next t ∧ t.pc = (if s.v x ≠ nn then s.pc + 2 else s.pc) ∧ KeepsAllBut [.pc] s t

/-- R88, R89: `5xy0` skips when `V[x] = V[y]` and `9xy0` when they differ; each changes only `pc`; a trailing
nibble other than 0 is illegal. -/
def Obligations.RegisterSkipsCompareTwoRegisters : Prop :=
  ∀ (x y : Reg) (s : State),
    decodeWord (packXYN 0x5 x y 0x0) = some (.seR x y) ∧ decodeWord (packXYN 0x9 x y 0x0) = some (.sneR x y) ∧
    (∀ n : Nibble, n ≠ 0 → decodeWord (packXYN 0x5 x y n) = none ∧ decodeWord (packXYN 0x9 x y n) = none) ∧
    (∃ t, exec (.seR x y) s = .next t ∧ t.pc = (if s.v x = s.v y then s.pc + 2 else s.pc) ∧ KeepsAllBut [.pc] s t) ∧
    ∃ t, exec (.sneR x y) s = .next t ∧ t.pc = (if s.v x ≠ s.v y then s.pc + 2 else s.pc) ∧ KeepsAllBut [.pc] s t

/-! ## Arithmetic and logic -/

/-- R90, R91, R92: `6xnn` loads `nn`, `7xnn` adds `nn` modulo 256 with no flag, `8xy0` copies `V[y]`; each
changes only `V[x]`. -/
def Obligations.LoadsAndAddImmediateWriteOneRegister : Prop :=
  ∀ (x y : Reg) (nn : Byte) (s : State),
    decodeWord (packXNN 0x6 x nn) = some (.ldI x nn) ∧ decodeWord (packXNN 0x7 x nn) = some (.addI x nn) ∧
    decodeWord (packXYN 0x8 x y 0x0) = some (.ldR x y) ∧
    (∃ t, exec (.ldI x nn) s = .next t ∧ t.v x = nn ∧ KeepsRegsBut [x] s t ∧ KeepsAllBut [.regs] s t) ∧
    (∃ t, exec (.addI x nn) s = .next t ∧ (t.v x).toNat = ((s.v x).toNat + nn.toNat) % 256 ∧
      KeepsRegsBut [x] s t ∧ KeepsAllBut [.regs] s t) ∧
    ∃ t, exec (.ldR x y) s = .next t ∧ t.v x = s.v y ∧ KeepsRegsBut [x] s t ∧ KeepsAllBut [.regs] s t

/-- R93, R94, R95: bitwise OR, AND and exclusive OR into `V[x]`; no flag, nothing else. -/
def Obligations.LogicWritesOneRegisterAndNoFlag : Prop :=
  ∀ (x y : Reg) (s : State),
    decodeWord (packXYN 0x8 x y 0x1) = some (.orR x y) ∧ decodeWord (packXYN 0x8 x y 0x2) = some (.andR x y) ∧
    decodeWord (packXYN 0x8 x y 0x3) = some (.xorR x y) ∧
    (∃ t, exec (.orR x y) s = .next t ∧ t.v x = s.v x ||| s.v y ∧ KeepsRegsBut [x] s t ∧ KeepsAllBut [.regs] s t) ∧
    (∃ t, exec (.andR x y) s = .next t ∧ t.v x = s.v x &&& s.v y ∧ KeepsRegsBut [x] s t ∧ KeepsAllBut [.regs] s t) ∧
    ∃ t, exec (.xorR x y) s = .next t ∧ t.v x = s.v x ^^^ s.v y ∧ KeepsRegsBut [x] s t ∧ KeepsAllBut [.regs] s t

/-- R96: the sum modulo 256 into `V[x]`, the carry into `V[15]`; with `x = 15` the carry stays. -/
def Obligations.AddSetsTheCarry : Prop :=
  ∀ (x y : Reg) (s : State),
    decodeWord (packXYN 0x8 x y 0x4) = some (.addR x y) ∧
    ∃ t, exec (.addR x y) s = .next t ∧
      (x ≠ 15 → (t.v x).toNat = ((s.v x).toNat + (s.v y).toNat) % 256) ∧
      t.v 15 = (if 256 ≤ (s.v x).toNat + (s.v y).toNat then 1 else 0) ∧
      KeepsRegsBut [x, 15] s t ∧ KeepsAllBut [.regs] s t

/-- R97, R99: the difference modulo 256 into `V[x]`, and 1 into `V[15]` exactly when no borrow occurred; `8xy5` is
`V[x] - V[y]`, `8xy7` is `V[y] - V[x]`; with `x = 15` the flag stays. -/
def Obligations.SubtractionsSetNoBorrow : Prop :=
  ∀ (x y : Reg) (s : State),
    decodeWord (packXYN 0x8 x y 0x5) = some (.sub x y) ∧ decodeWord (packXYN 0x8 x y 0x7) = some (.subn x y) ∧
    (∃ t, exec (.sub x y) s = .next t ∧
      (x ≠ 15 → ((t.v x).toNat : Int) = (((s.v x).toNat : Int) - (s.v y).toNat) % 256) ∧
      t.v 15 = (if (s.v y).toNat ≤ (s.v x).toNat then 1 else 0) ∧
      KeepsRegsBut [x, 15] s t ∧ KeepsAllBut [.regs] s t) ∧
    ∃ t, exec (.subn x y) s = .next t ∧
      (x ≠ 15 → ((t.v x).toNat : Int) = (((s.v y).toNat : Int) - (s.v x).toNat) % 256) ∧
      t.v 15 = (if (s.v x).toNat ≤ (s.v y).toNat then 1 else 0) ∧
      KeepsRegsBut [x, 15] s t ∧ KeepsAllBut [.regs] s t

/-- R98, R100, R58: a shift by one of `V[x]`, whatever `y` is, and the bit shifted out into `V[15]`. What is left
in `V[15]` when `x = 15` (the flag written first and then shifted in place) is the spec's decision D9 (log
entry 3). -/
def Obligations.ShiftsMoveOneBitIntoTheFlag : Prop :=
  ∀ (x y : Reg) (s : State),
    decodeWord (packXYN 0x8 x y 0x6) = some (.shr x y) ∧ decodeWord (packXYN 0x8 x y 0xE) = some (.shl x y) ∧
    (∃ t, exec (.shr x y) s = .next t ∧
      (x ≠ 15 → (t.v x).toNat = (s.v x).toNat / 2 ∧ (t.v 15).toNat = (s.v x).toNat % 2) ∧
      (x = 15 → t.v 15 = 0) ∧ KeepsRegsBut [x, 15] s t ∧ KeepsAllBut [.regs] s t) ∧
    ∃ t, exec (.shl x y) s = .next t ∧
      (x ≠ 15 → (t.v x).toNat = 2 * (s.v x).toNat % 256 ∧ (t.v 15).toNat = (s.v x).toNat / 128) ∧
      (x = 15 → (t.v 15).toNat = 2 * ((s.v x).toNat / 128)) ∧ KeepsRegsBut [x, 15] s t ∧ KeepsAllBut [.regs] s t

/-- R103: the flag laws. With `x ≠ 15`, `V[15]` and `V[x]` together give the exact sum, difference, halved or
doubled value. -/
def Obligations.FlagAndResultGiveTheExactValue : Prop :=
  ∀ (x y : Reg) (s t : State), x ≠ 15 →
    (exec (.addR x y) s = .next t →
      256 * (t.v 15).toNat + (t.v x).toNat = (s.v x).toNat + (s.v y).toNat) ∧
    (exec (.sub x y) s = .next t →
      ((t.v x).toNat : Int) - 256 * (1 - (t.v 15).toNat) = (s.v x).toNat - (s.v y).toNat) ∧
    (exec (.subn x y) s = .next t →
      ((t.v x).toNat : Int) - 256 * (1 - (t.v 15).toNat) = (s.v y).toNat - (s.v x).toNat) ∧
    (exec (.shr x y) s = .next t → 2 * (t.v x).toNat + (t.v 15).toNat = (s.v x).toNat) ∧
    (exec (.shl x y) s = .next t → 256 * (t.v 15).toNat + (t.v x).toNat = 2 * (s.v x).toNat)

/-- R101 (the spec's decision D12): `Cxnn` writes the random byte masked with `nn`, and nothing else but the
model's count of draws (log entry 1). In `run_cycle` the byte is its input, for every byte; in `exec` it is the
free value of this draw, which this holds of whatever it is. -/
def Obligations.RandomByteIsMasked : Prop :=
  ∀ (x : Reg) (nn : Byte) (s : State),
    decodeWord (packXNN 0xC x nn) = some (.rnd x nn) ∧
    (∃ t, exec (.rnd x nn) s = .next t ∧ t.v x = Config.rnd s.draws &&& nn ∧ t.v x &&& ~~~nn = 0 ∧
      t.draws = s.draws + 1 ∧ KeepsRegsBut [x] s t ∧ KeepsAllBut [.regs, .draws] s t) ∧
    ∀ b : Byte, s.pc.toNat ≤ 0xFFE → decodeWord s.fetchWord = some (.rnd x nn) →
      ∃ t, runCycle b s = .next t ∧ t.v x = b &&& nn ∧ t.pc.toNat = s.pc.toNat + 2 ∧ KeepsRegsBut [x] s t ∧
        KeepsAllBut [.regs, .pc, .draws] s t

/-! ## Index register and memory -/

/-- R106, R107, R108: `Annn` loads `I`, `Fx1E` adds `V[x]` modulo 65536 with no flag, `Fx29` points `I` at the
glyph of the low nibble of `V[x]`; each changes only `I`. -/
def Obligations.IndexInstructionsWriteOnlyTheIndex : Prop :=
  ∀ (x : Reg) (nnn : Addr) (s : State),
    decodeWord (packNNN 0xA nnn) = some (.ldIdx nnn) ∧ decodeWord (packXNN 0xF x 0x1E) = some (.addIdx x) ∧
    decodeWord (packXNN 0xF x 0x29) = some (.ldF x) ∧
    (∃ t, exec (.ldIdx nnn) s = .next t ∧ t.idx.toNat = nnn.toNat ∧ KeepsAllBut [.idx] s t) ∧
    (∃ t, exec (.addIdx x) s = .next t ∧ t.idx.toNat = (s.idx.toNat + (s.v x).toNat) % 65536 ∧
      KeepsAllBut [.idx] s t) ∧
    ∃ t, exec (.ldF x) s = .next t ∧ t.idx.toNat = 5 * ((s.v x).toNat % 16) ∧ KeepsAllBut [.idx] s t

/-- R109: `Fx33` with its three bytes in memory stores the decimal digits of `V[x]` at `I`, `I + 1`, `I + 2`; no
other byte and no register changes. (The bounds are R37, the spec's decision D8.) -/
def Obligations.DecimalDigitsAreStored : Prop :=
  ∀ (x : Reg) (s : State), decodeWord (packXNN 0xF x 0x33) = some (.ldB x) ∧
    (s.mem.wf → s.base + 2 < 4096 →
      ∃ t, exec (.ldB x) s = .next t ∧ (t.byte s.base).toNat = (s.v x).toNat / 100 ∧
        (t.byte (s.base + 1)).toNat = (s.v x).toNat / 10 % 10 ∧ (t.byte (s.base + 2)).toNat = (s.v x).toNat % 10 ∧
        KeepsBytesOutside s.base 3 s t ∧ KeepsAllBut [.mem] s t)

/-- R110: `Fx55` with its bytes in memory stores `V[0]` to `V[x]` from `I` upward; no other byte and no register
changes, `I` included. (The bounds are R37, the spec's decision D8.) -/
def Obligations.RegistersAreStoredAscending : Prop :=
  ∀ (x : Reg) (s : State), decodeWord (packXNN 0xF x 0x55) = some (.stRegs x) ∧
    (s.mem.wf → s.base + x.val < 4096 →
      ∃ t, exec (.stRegs x) s = .next t ∧ (∀ k : Reg, k ≤ x → t.byte (s.base + k.val) = s.v k) ∧
        KeepsBytesOutside s.base (x.val + 1) s t ∧ KeepsAllBut [.mem] s t)

/-- R111: `Fx65` with its bytes in memory loads `V[0]` to `V[x]` from `I` upward; the registers above `x`, `I` and
memory stay. (The bounds are R37, the spec's decision D8.) -/
def Obligations.RegistersAreLoadedAscending : Prop :=
  ∀ (x : Reg) (s : State), decodeWord (packXNN 0xF x 0x65) = some (.ldRegs x) ∧
    (s.base + x.val < 4096 →
      ∃ t, exec (.ldRegs x) s = .next t ∧ (∀ k : Reg, k ≤ x → t.v k = s.byte (s.base + k.val)) ∧
        (∀ k : Reg, x < k → t.v k = s.v k) ∧ KeepsAllBut [.regs] s t)

/-- R38, R145: an instruction whose highest address `I + k` is 4096 or more raises `MemoryFault`, with the sum not
wrapped (the spec's decision D8) and with the lowest address out of bounds (D4); a sprite of no rows is R117's
and cannot. -/
def Obligations.OperandsOutsideMemoryFault : Prop :=
  ∀ (x y : Reg) (n : Nibble) (s : State),
    (4096 ≤ s.idx.toNat + 2 → exec (.ldB x) s = .fault (.memoryFault (max s.idx.toNat 4096))) ∧
    (4096 ≤ s.idx.toNat + x.val →
      exec (.stRegs x) s = .fault (.memoryFault (max s.idx.toNat 4096)) ∧
      exec (.ldRegs x) s = .fault (.memoryFault (max s.idx.toNat 4096))) ∧
    (0 < n.val → 4096 ≤ s.idx.toNat + n.val - 1 →
      exec (.drw x y n) s = .fault (.memoryFault (max s.idx.toNat 4096)))

/-- R112: a load after a store, with `I` and the stored bytes as the store left them, restores the registers. -/
def Obligations.LoadAfterStoreRestoresTheRegisters : Prop :=
  ∀ (x : Reg) (s t u : State), s.mem.wf → exec (.stRegs x) s = .next t → u.idx = t.idx →
    (∀ k : Reg, k ≤ x → u.byte (s.base + k.val) = t.byte (s.base + k.val)) →
    ∃ w, exec (.ldRegs x) u = .next w ∧ ∀ k : Reg, k ≤ x → w.v k = s.v k

/-! ## Display -/

/-- R116: `00E0` leaves every pixel unlit and nothing else changed, the flag register included. -/
def Obligations.ClearUnlightsEveryPixel : Prop :=
  decodeWord 0x00E0#16 = some .cls ∧
  ∀ s : State, ∃ t, exec .cls s = .next t ∧ (∀ r c, t.pixel r c = false) ∧ KeepsAllBut [.disp] s t

/-- R117: `Dxyn` with its rows in memory toggles exactly the pixels its sprite covers and sets `V[15]` to 1 exactly
when one of them was lit; nothing else changes. The bit order and the reading of the origin before the flag is
written are the spec's decision D10 (log entry 4), the bounds D8. -/
def Obligations.DrawTogglesThePixelsItCovers : Prop :=
  ∀ (x y : Reg) (n : Nibble) (s : State), decodeWord (packXYN 0xD x y n) = some (.drw x y n) ∧
    (n.val = 0 ∨ s.base + n.val - 1 < 4096 →
      ∃ t, exec (.drw x y n) s = .next t ∧
        (∀ r c, (SpriteCovers s x y n r c → t.pixel r c = !s.pixel r c) ∧
          (¬SpriteCovers s x y n r c → t.pixel r c = s.pixel r c)) ∧
        ((∃ r c, SpriteCovers s x y n r c ∧ s.pixel r c = true) → t.v 15 = 1) ∧
        ((∀ r c, SpriteCovers s x y n r c → s.pixel r c = false) → t.v 15 = 0) ∧
        KeepsRegsBut [15] s t ∧ KeepsAllBut [.disp, .regs] s t)

/-- R118: two draws with the same origin, the same number of rows and the same sprite bytes, with the display
unchanged between them, give back the display, and the second sets the flag exactly when a pixel it covers was
lit after the first. Which pixels a sprite covers, and a draw with `V[15]` as a coordinate, rest on the spec's
decision D10 (log entry 4). -/
def Obligations.SecondDrawRestoresTheDisplay : Prop :=
  ∀ (x y x' y' : Reg) (n : Nibble) (s t u w : State),
    exec (.drw x y n) s = .next t → exec (.drw x' y' n) u = .next w → Keeps .disp t u →
    (u.v x').toNat % 64 = (s.v x).toNat % 64 → (u.v y').toNat % 32 = (s.v y).toNat % 32 →
    (∀ k < n.val, u.byte (u.base + k) = s.byte (s.base + k)) →
    Keeps .disp s w ∧ (w.v 15 = 1 ↔ ∃ r c, SpriteCovers s x y n r c ∧ t.pixel r c = true)

/-! ## Keys and timers -/

/-- R121, R122: `Ex9E` skips when the key numbered `V[x]` is pressed and `ExA1` when it is not; each changes only
`pc`. A number above 15 raises `InvalidKeyIndex` (the spec's decision D11, log entry 5). -/
def Obligations.KeySkipsTestTheNamedKey : Prop :=
  ∀ (x : Reg) (s : State),
    decodeWord (packXNN 0xE x 0x9E) = some (.skp x) ∧ decodeWord (packXNN 0xE x 0xA1) = some (.sknp x) ∧
    (∀ k : Fin 16, (s.v x).toNat = k.val →
      (∃ t, exec (.skp x) s = .next t ∧ t.pc = (if s.key k = true then s.pc + 2 else s.pc) ∧
        KeepsAllBut [.pc] s t) ∧
      ∃ t, exec (.sknp x) s = .next t ∧ t.pc = (if s.key k = false then s.pc + 2 else s.pc) ∧
        KeepsAllBut [.pc] s t) ∧
    (16 ≤ (s.v x).toNat →
      exec (.skp x) s = .fault (.invalidKeyIndex (s.v x).toNat) ∧
      exec (.sknp x) s = .fault (.invalidKeyIndex (s.v x).toNat))

/-- R123: `Fx0A` writes the least pressed key's number to `V[x]`; with no key pressed it sets `pc` back by 2 and
changes nothing else, so that the cycle leaves the state exactly as it was. -/
def Obligations.KeyWaitTakesTheLeastPressedKey : Prop :=
  ∀ (x : Reg) (s : State), decodeWord (packXNN 0xF x 0x0A) = some (.ldVxK x) ∧
    (∀ k : Fin 16, s.key k = true → (∀ j < k, s.key j = false) →
      ∃ t, exec (.ldVxK x) s = .next t ∧ (t.v x).toNat = k.val ∧ KeepsRegsBut [x] s t ∧ KeepsAllBut [.regs] s t) ∧
    ((∀ k, s.key k = false) →
      (∃ t, exec (.ldVxK x) s = .next t ∧ t.pc = s.pc - 2 ∧ KeepsAllBut [.pc] s t) ∧
      (s.pc.toNat ≤ 0xFFE → decodeWord s.fetchWord = some (.ldVxK x) → step s = .next s))

/-- R124, R125, R126: `Fx07` copies `DT` to `V[x]`, `Fx15` copies `V[x]` to `DT`, `Fx18` copies `V[x]` to `ST`, so
that the sound output is on exactly when the byte is not 0; each changes only its destination. -/
def Obligations.TimerInstructionsCopyOneByte : Prop :=
  ∀ (x : Reg) (s : State),
    decodeWord (packXNN 0xF x 0x07) = some (.ldVxDt x) ∧ decodeWord (packXNN 0xF x 0x15) = some (.ldDtVx x) ∧
    decodeWord (packXNN 0xF x 0x18) = some (.ldStVx x) ∧
    (∃ t, exec (.ldVxDt x) s = .next t ∧ t.v x = s.dt ∧ KeepsRegsBut [x] s t ∧ KeepsAllBut [.regs] s t) ∧
    (∃ t, exec (.ldDtVx x) s = .next t ∧ t.dt = s.v x ∧ KeepsAllBut [.dt] s t) ∧
    ∃ t, exec (.ldStVx x) s = .next t ∧ t.st = s.v x ∧ KeepsAllBut [.st] s t ∧
      (t.soundActive = true ↔ 0 < (s.v x).toNat)
end

