-- ==== Sys2Proof/Laws/Encoding.lean ====
section
/-! SUPPORT. The fields of a packed word, the bytes of a word, and the table's masks as arithmetic. -/

namespace Sys2Proof

/-! ## A packed word's value and fields -/

theorem packNNN_toNat {op : Nat} (h : op < 16) (nnn : Addr) : (packNNN op nnn).toNat = op * 4096 + nnn.toNat := by
  have := nnn.isLt
  simp only [packNNN, BitVec.toNat_ofNat]
  omega

theorem packXNN_toNat {op : Nat} (h : op < 16) (x : Reg) (nn : Byte) :
    (packXNN op x nn).toNat = op * 4096 + x.val * 256 + nn.toNat := by
  have := nn.isLt
  simp only [packXNN, BitVec.toNat_ofNat]
  omega

theorem packXYN_toNat {op : Nat} (h : op < 16) (x y : Reg) (n : Nibble) :
    (packXYN op x y n).toNat = op * 4096 + x.val * 256 + y.val * 16 + n.val := by
  simp only [packXYN, BitVec.toNat_ofNat]
  omega

theorem fieldOp_packNNN {op : Nat} (h : op < 16) (nnn : Addr) : fieldOp (packNNN op nnn) = op := by
  have := nnn.isLt
  simp only [fieldOp, slice, packNNN_toNat h]
  omega

theorem fieldNNN_packNNN {op : Nat} (h : op < 16) (nnn : Addr) : fieldNNN (packNNN op nnn) = nnn := by
  have := nnn.isLt
  apply BitVec.eq_of_toNat_eq
  simp only [fieldNNN, slice, packNNN_toNat h, BitVec.toNat_ofNat]
  omega

theorem fieldOp_packXNN {op : Nat} (h : op < 16) (x : Reg) (nn : Byte) : fieldOp (packXNN op x nn) = op := by
  have := nn.isLt
  simp only [fieldOp, slice, packXNN_toNat h]
  omega

theorem fieldX_packXNN {op : Nat} (h : op < 16) (x : Reg) (nn : Byte) : fieldX (packXNN op x nn) = x := by
  have := nn.isLt
  apply Fin.ext
  simp only [fieldX, slice, packXNN_toNat h, Fin.val_ofNat]
  omega

theorem slice_nn_packXNN {op : Nat} (h : op < 16) (x : Reg) (nn : Byte) :
    slice (packXNN op x nn) 7 0 = nn.toNat := by
  have := nn.isLt
  simp only [slice, packXNN_toNat h]
  omega

theorem fieldNN_packXNN {op : Nat} (h : op < 16) (x : Reg) (nn : Byte) : fieldNN (packXNN op x nn) = nn := by
  simp [fieldNN, slice_nn_packXNN h]

theorem fieldOp_packXYN {op : Nat} (h : op < 16) (x y : Reg) (n : Nibble) : fieldOp (packXYN op x y n) = op := by
  simp only [fieldOp, slice, packXYN_toNat h]
  omega

theorem fieldX_packXYN {op : Nat} (h : op < 16) (x y : Reg) (n : Nibble) : fieldX (packXYN op x y n) = x := by
  apply Fin.ext
  simp only [fieldX, slice, packXYN_toNat h, Fin.val_ofNat]
  omega

theorem fieldY_packXYN {op : Nat} (h : op < 16) (x y : Reg) (n : Nibble) : fieldY (packXYN op x y n) = y := by
  apply Fin.ext
  simp only [fieldY, slice, packXYN_toNat h, Fin.val_ofNat]
  omega

theorem slice_n_packXYN {op : Nat} (h : op < 16) (x y : Reg) (n : Nibble) : slice (packXYN op x y n) 3 0 = n.val := by
  simp only [slice, packXYN_toNat h]
  omega

theorem fieldN_packXYN {op : Nat} (h : op < 16) (x y : Reg) (n : Nibble) : fieldN (packXYN op x y n) = n := by
  apply Fin.ext
  simp only [fieldN, slice_n_packXYN h, Fin.val_ofNat]
  omega

/-! ## Bytes of a word (R30) -/

theorem wordOfBytes_toNat (hi lo : Byte) : (wordOfBytes hi lo).toNat = hi.toNat * 256 + lo.toNat := by
  have := hi.isLt
  have := lo.isLt
  simp only [wordOfBytes, BitVec.toNat_ofNat]
  omega

theorem wordOfBytes_high_low (w : Word) : wordOfBytes (highByte w) (lowByte w) = w := by
  have := w.isLt
  apply BitVec.eq_of_toNat_eq
  simp only [wordOfBytes_toNat, highByte, lowByte, slice, BitVec.toNat_ofNat]
  omega

/-- The decoder on the two bytes of a word and what follows them. -/
theorem decode_bytes (w : Word) (rest : List Byte) :
    decode (highByte w :: lowByte w :: rest) =
      match decodeWord w with
      | some i => .instr i rest
      | none => .illegalInstruction w := by
  cases h : decodeWord w <;> simp [decode, wordOfBytes_high_low, h]

/-! ## A word as its fields -/

theorem fieldOp_lt (w : Word) : fieldOp w < 16 := Nat.mod_lt _ (by decide)

theorem toNat_fields (w : Word) :
    w.toNat = fieldOp w * 4096 + (fieldX w).val * 256 + (fieldY w).val * 16 + (fieldN w).val := by
  have := w.isLt
  simp only [fieldOp, fieldX, fieldY, fieldN, slice, Fin.val_ofNat]
  omega

theorem slice_nn_fields (w : Word) : slice w 7 0 = (fieldY w).val * 16 + (fieldN w).val := by
  simp only [fieldY, fieldN, slice, Fin.val_ofNat]
  omega

theorem slice_nnn_fields (w : Word) :
    slice w 11 0 = (fieldX w).val * 256 + (fieldY w).val * 16 + (fieldN w).val := by
  simp only [fieldX, fieldY, fieldN, slice, Fin.val_ofNat]
  omega

theorem slice_n_fields (w : Word) : slice w 3 0 = (fieldN w).val := by
  simp only [fieldN, slice, Fin.val_ofNat]
  omega

theorem packXYN_fields (w : Word) : packXYN (fieldOp w) (fieldX w) (fieldY w) (fieldN w) = w := by
  apply BitVec.eq_of_toNat_eq
  rw [packXYN_toNat (fieldOp_lt w), ← toNat_fields]

theorem packXNN_fields (w : Word) : packXNN (fieldOp w) (fieldX w) (fieldNN w) = w := by
  have := slice_nn_fields w
  apply BitVec.eq_of_toNat_eq
  rw [packXNN_toNat (fieldOp_lt w), toNat_fields w, fieldNN, BitVec.toNat_ofNat]
  omega

theorem packNNN_fields (w : Word) : packNNN (fieldOp w) (fieldNNN w) = w := by
  have := slice_nnn_fields w
  apply BitVec.eq_of_toNat_eq
  rw [packNNN_toNat (fieldOp_lt w), toNat_fields w, fieldNNN, BitVec.toNat_ofNat]
  omega

/-! ## The masks of the opcode table -/

theorem and_F000 (w : Word) : w &&& 0xF000#16 = BitVec.ofNat 16 (fieldOp w * 4096) := by
  have bits : w &&& 0xF000#16 = (w >>> 12) <<< 12 := by
    ext i hi
    interval_cases i <;> simp
  have := w.isLt
  rw [bits]
  apply BitVec.eq_of_toNat_eq
  simp only [BitVec.toNat_shiftLeft, BitVec.toNat_ushiftRight, Nat.shiftLeft_eq, Nat.shiftRight_eq_div_pow,
    BitVec.toNat_ofNat, fieldOp, slice]
  omega

theorem and_000F (w : Word) : w &&& 0x000F#16 = BitVec.ofNat 16 (fieldN w).val := by
  have := w.isLt
  apply BitVec.eq_of_toNat_eq
  rw [BitVec.toNat_and, show (0x000F#16).toNat = 2 ^ 4 - 1 from rfl, Nat.and_two_pow_sub_one_eq_mod]
  simp only [fieldN, slice, Fin.val_ofNat, BitVec.toNat_ofNat]
  omega

theorem and_00FF (w : Word) : w &&& 0x00FF#16 = BitVec.ofNat 16 (slice w 7 0) := by
  have := w.isLt
  apply BitVec.eq_of_toNat_eq
  rw [BitVec.toNat_and, show (0x00FF#16).toNat = 2 ^ 8 - 1 from rfl, Nat.and_two_pow_sub_one_eq_mod]
  simp only [slice, BitVec.toNat_ofNat]
  omega

theorem and_FFFF (w : Word) : w &&& 0xFFFF#16 = w := BitVec.and_allOnes

theorem and_F00F (w : Word) : w &&& 0xF00F#16 = BitVec.ofNat 16 (fieldOp w * 4096 + (fieldN w).val) := by
  rw [show (0xF00F#16) = 0xF000#16 ||| 0x000F#16 from rfl, BitVec.and_or_distrib_left,
    ← BitVec.add_eq_or_of_and_eq_zero, and_F000, and_000F, ← BitVec.ofNat_add]
  ext i hi
  interval_cases i <;> simp

theorem and_F0FF (w : Word) : w &&& 0xF0FF#16 = BitVec.ofNat 16 (fieldOp w * 4096 + slice w 7 0) := by
  rw [show (0xF0FF#16) = 0xF000#16 ||| 0x00FF#16 from rfl, BitVec.and_or_distrib_left,
    ← BitVec.add_eq_or_of_and_eq_zero, and_F000, and_00FF, ← BitVec.ofNat_add]
  ext i hi
  interval_cases i <;> simp

theorem ofNat16_beq {a b : Nat} (ha : a < 65536) (hb : b < 65536) :
    (BitVec.ofNat 16 a == BitVec.ofNat 16 b) = decide (a = b) := by
  rw [Bool.eq_iff_iff]
  simp only [beq_iff_eq, decide_eq_true_eq, ← BitVec.toNat_inj, BitVec.toNat_ofNat]
  omega

/-- A row that fixes `op` alone. -/
theorem admits_F000 (l : String) (w : Word) {op : Nat} (h : op < 16) :
    OpcodeRow.admits ⟨l, BitVec.ofNat 16 (op * 4096), 0xF000#16⟩ w = decide (fieldOp w = op) := by
  have := fieldOp_lt w
  simp only [OpcodeRow.admits, and_F000]
  rw [ofNat16_beq (by omega) (by omega), decide_eq_decide]
  omega

/-- A row that fixes `op` and `n`. -/
theorem admits_F00F (l : String) (w : Word) {op n : Nat} (h : op < 16) (hn : n < 16) :
    OpcodeRow.admits ⟨l, BitVec.ofNat 16 (op * 4096 + n), 0xF00F#16⟩ w =
      decide (fieldOp w = op ∧ slice w 3 0 = n) := by
  have := fieldOp_lt w
  have := slice_n_fields w
  simp only [OpcodeRow.admits, and_F00F]
  rw [ofNat16_beq (by omega) (by omega), decide_eq_decide]
  omega

/-- A row that fixes `op` and `nn`. -/
theorem admits_F0FF (l : String) (w : Word) {op nn : Nat} (h : op < 16) (hn : nn < 256) :
    OpcodeRow.admits ⟨l, BitVec.ofNat 16 (op * 4096 + nn), 0xF0FF#16⟩ w =
      decide (fieldOp w = op ∧ slice w 7 0 = nn) := by
  have := fieldOp_lt w
  have := slice_nn_fields w
  simp only [OpcodeRow.admits, and_F0FF]
  rw [ofNat16_beq (by omega) (by omega), decide_eq_decide]
  omega

/-- A row that fixes all sixteen bits. -/
theorem admits_FFFF (l : String) (w : Word) {op nnn : Nat} (h : op < 16) (hn : nnn < 4096) :
    OpcodeRow.admits ⟨l, BitVec.ofNat 16 (op * 4096 + nnn), 0xFFFF#16⟩ w =
      decide (fieldOp w = op ∧ slice w 11 0 = nnn) := by
  have := fieldOp_lt w
  have := slice_nnn_fields w
  have hw : w = BitVec.ofNat 16 (fieldOp w * 4096 + slice w 11 0) := by
    apply BitVec.eq_of_toNat_eq
    rw [toNat_fields w, BitVec.toNat_ofNat]
    omega
  simp only [OpcodeRow.admits, and_FFFF]
  rw [hw, ofNat16_beq (by omega) (by omega), decide_eq_decide, ← hw]
  omega

end Sys2Proof
end

