-- ==== Sys2Proof/Laws/State.lean ====
section
/-! SUPPORT. One lemma per field and accessor per update of the state, so that no proof unfolds a record
update. -/

namespace Sys2Proof.Machine

variable (s : State)

/-! ## Parameters as numbers -/

@[simp] theorem memSize_eq : Config.memSize = 4096 := rfl
@[simp] theorem progBase_eq : Config.progBase = 512 := rfl
@[simp] theorem progMax_eq : Config.progMax = 3584 := rfl
@[simp] theorem fontBase_eq : Config.fontBase = 0 := rfl
@[simp] theorem fontLen_eq : Config.fontLen = 80 := rfl
@[simp] theorem glyphRows_eq : Config.glyphRows = 5 := rfl
@[simp] theorem stackDepth_eq : Config.stackDepth = 16 := rfl
@[simp] theorem width_eq : Config.width = 64 := rfl
@[simp] theorem height_eq : Config.height = 32 := rfl
@[simp] theorem nkeys_eq : Config.nkeys = 16 := rfl
@[simp] theorem instrBytes_eq : Config.instrBytes = 2 := rfl
@[simp] theorem flagReg_eq : flagReg = 15 := rfl

/-! ## `setV` -/

@[simp] theorem State.setV_mem (j : Reg) (b : Byte) : (s.setV j b).mem = s.mem := rfl
@[simp] theorem State.setV_regs (j : Reg) (b : Byte) : (s.setV j b).regs = s.regs.set j.val b := rfl
@[simp] theorem State.setV_idx (j : Reg) (b : Byte) : (s.setV j b).idx = s.idx := rfl
@[simp] theorem State.setV_pc (j : Reg) (b : Byte) : (s.setV j b).pc = s.pc := rfl
@[simp] theorem State.setV_stack (j : Reg) (b : Byte) : (s.setV j b).stack = s.stack := rfl
@[simp] theorem State.setV_sp (j : Reg) (b : Byte) : (s.setV j b).sp = s.sp := rfl
@[simp] theorem State.setV_disp (j : Reg) (b : Byte) : (s.setV j b).disp = s.disp := rfl
@[simp] theorem State.setV_keys (j : Reg) (b : Byte) : (s.setV j b).keys = s.keys := rfl
@[simp] theorem State.setV_dt (j : Reg) (b : Byte) : (s.setV j b).dt = s.dt := rfl
@[simp] theorem State.setV_st (j : Reg) (b : Byte) : (s.setV j b).st = s.st := rfl
@[simp] theorem State.setV_draws (j : Reg) (b : Byte) : (s.setV j b).draws = s.draws := rfl
@[simp] theorem State.setV_byte (j : Reg) (b : Byte) (a : Nat) : (s.setV j b).byte a = s.byte a := rfl
@[simp] theorem State.setV_pixel (j : Reg) (b : Byte) (r : Fin 32) (c : Fin 64) : (s.setV j b).pixel r c = s.pixel r c := rfl
@[simp] theorem State.setV_key (j : Reg) (b : Byte) (k : Fin 16) : (s.setV j b).key k = s.key k := rfl
@[simp] theorem State.setV_entry (j : Reg) (b : Byte) (k : Fin 16) : (s.setV j b).entry k = s.entry k := rfl

/-! ## `setRegs` -/

@[simp] theorem State.setRegs_mem (x : Regs) : (s.setRegs x).mem = s.mem := rfl
@[simp] theorem State.setRegs_regs (x : Regs) : (s.setRegs x).regs = x := rfl
@[simp] theorem State.setRegs_idx (x : Regs) : (s.setRegs x).idx = s.idx := rfl
@[simp] theorem State.setRegs_pc (x : Regs) : (s.setRegs x).pc = s.pc := rfl
@[simp] theorem State.setRegs_stack (x : Regs) : (s.setRegs x).stack = s.stack := rfl
@[simp] theorem State.setRegs_sp (x : Regs) : (s.setRegs x).sp = s.sp := rfl
@[simp] theorem State.setRegs_disp (x : Regs) : (s.setRegs x).disp = s.disp := rfl
@[simp] theorem State.setRegs_keys (x : Regs) : (s.setRegs x).keys = s.keys := rfl
@[simp] theorem State.setRegs_dt (x : Regs) : (s.setRegs x).dt = s.dt := rfl
@[simp] theorem State.setRegs_st (x : Regs) : (s.setRegs x).st = s.st := rfl
@[simp] theorem State.setRegs_draws (x : Regs) : (s.setRegs x).draws = s.draws := rfl
@[simp] theorem State.setRegs_byte (x : Regs) (a : Nat) : (s.setRegs x).byte a = s.byte a := rfl
@[simp] theorem State.setRegs_pixel (x : Regs) (r : Fin 32) (c : Fin 64) : (s.setRegs x).pixel r c = s.pixel r c := rfl
@[simp] theorem State.setRegs_key (x : Regs) (k : Fin 16) : (s.setRegs x).key k = s.key k := rfl
@[simp] theorem State.setRegs_entry (x : Regs) (k : Fin 16) : (s.setRegs x).entry k = s.entry k := rfl

/-! ## `setIdx` -/

@[simp] theorem State.setIdx_mem (w : Word) : (s.setIdx w).mem = s.mem := rfl
@[simp] theorem State.setIdx_regs (w : Word) : (s.setIdx w).regs = s.regs := rfl
@[simp] theorem State.setIdx_idx (w : Word) : (s.setIdx w).idx = w := rfl
@[simp] theorem State.setIdx_pc (w : Word) : (s.setIdx w).pc = s.pc := rfl
@[simp] theorem State.setIdx_stack (w : Word) : (s.setIdx w).stack = s.stack := rfl
@[simp] theorem State.setIdx_sp (w : Word) : (s.setIdx w).sp = s.sp := rfl
@[simp] theorem State.setIdx_disp (w : Word) : (s.setIdx w).disp = s.disp := rfl
@[simp] theorem State.setIdx_keys (w : Word) : (s.setIdx w).keys = s.keys := rfl
@[simp] theorem State.setIdx_dt (w : Word) : (s.setIdx w).dt = s.dt := rfl
@[simp] theorem State.setIdx_st (w : Word) : (s.setIdx w).st = s.st := rfl
@[simp] theorem State.setIdx_draws (w : Word) : (s.setIdx w).draws = s.draws := rfl
@[simp] theorem State.setIdx_v (w : Word) (i : Reg) : (s.setIdx w).v i = s.v i := rfl
@[simp] theorem State.setIdx_byte (w : Word) (a : Nat) : (s.setIdx w).byte a = s.byte a := rfl
@[simp] theorem State.setIdx_pixel (w : Word) (r : Fin 32) (c : Fin 64) : (s.setIdx w).pixel r c = s.pixel r c := rfl
@[simp] theorem State.setIdx_key (w : Word) (k : Fin 16) : (s.setIdx w).key k = s.key k := rfl
@[simp] theorem State.setIdx_entry (w : Word) (k : Fin 16) : (s.setIdx w).entry k = s.entry k := rfl

/-! ## `setPc` -/

@[simp] theorem State.setPc_mem (w : Word) : (s.setPc w).mem = s.mem := rfl
@[simp] theorem State.setPc_regs (w : Word) : (s.setPc w).regs = s.regs := rfl
@[simp] theorem State.setPc_idx (w : Word) : (s.setPc w).idx = s.idx := rfl
@[simp] theorem State.setPc_pc (w : Word) : (s.setPc w).pc = w := rfl
@[simp] theorem State.setPc_stack (w : Word) : (s.setPc w).stack = s.stack := rfl
@[simp] theorem State.setPc_sp (w : Word) : (s.setPc w).sp = s.sp := rfl
@[simp] theorem State.setPc_disp (w : Word) : (s.setPc w).disp = s.disp := rfl
@[simp] theorem State.setPc_keys (w : Word) : (s.setPc w).keys = s.keys := rfl
@[simp] theorem State.setPc_dt (w : Word) : (s.setPc w).dt = s.dt := rfl
@[simp] theorem State.setPc_st (w : Word) : (s.setPc w).st = s.st := rfl
@[simp] theorem State.setPc_draws (w : Word) : (s.setPc w).draws = s.draws := rfl
@[simp] theorem State.setPc_v (w : Word) (i : Reg) : (s.setPc w).v i = s.v i := rfl
@[simp] theorem State.setPc_byte (w : Word) (a : Nat) : (s.setPc w).byte a = s.byte a := rfl
@[simp] theorem State.setPc_pixel (w : Word) (r : Fin 32) (c : Fin 64) : (s.setPc w).pixel r c = s.pixel r c := rfl
@[simp] theorem State.setPc_key (w : Word) (k : Fin 16) : (s.setPc w).key k = s.key k := rfl
@[simp] theorem State.setPc_entry (w : Word) (k : Fin 16) : (s.setPc w).entry k = s.entry k := rfl

/-! ## `setMem` -/

@[simp] theorem State.setMem_mem (m : Memory) : (s.setMem m).mem = m := rfl
@[simp] theorem State.setMem_regs (m : Memory) : (s.setMem m).regs = s.regs := rfl
@[simp] theorem State.setMem_idx (m : Memory) : (s.setMem m).idx = s.idx := rfl
@[simp] theorem State.setMem_pc (m : Memory) : (s.setMem m).pc = s.pc := rfl
@[simp] theorem State.setMem_stack (m : Memory) : (s.setMem m).stack = s.stack := rfl
@[simp] theorem State.setMem_sp (m : Memory) : (s.setMem m).sp = s.sp := rfl
@[simp] theorem State.setMem_disp (m : Memory) : (s.setMem m).disp = s.disp := rfl
@[simp] theorem State.setMem_keys (m : Memory) : (s.setMem m).keys = s.keys := rfl
@[simp] theorem State.setMem_dt (m : Memory) : (s.setMem m).dt = s.dt := rfl
@[simp] theorem State.setMem_st (m : Memory) : (s.setMem m).st = s.st := rfl
@[simp] theorem State.setMem_draws (m : Memory) : (s.setMem m).draws = s.draws := rfl
@[simp] theorem State.setMem_v (m : Memory) (i : Reg) : (s.setMem m).v i = s.v i := rfl
@[simp] theorem State.setMem_pixel (m : Memory) (r : Fin 32) (c : Fin 64) : (s.setMem m).pixel r c = s.pixel r c := rfl
@[simp] theorem State.setMem_key (m : Memory) (k : Fin 16) : (s.setMem m).key k = s.key k := rfl
@[simp] theorem State.setMem_entry (m : Memory) (k : Fin 16) : (s.setMem m).entry k = s.entry k := rfl

/-! ## `setDisp` -/

@[simp] theorem State.setDisp_mem (d : Display) : (s.setDisp d).mem = s.mem := rfl
@[simp] theorem State.setDisp_regs (d : Display) : (s.setDisp d).regs = s.regs := rfl
@[simp] theorem State.setDisp_idx (d : Display) : (s.setDisp d).idx = s.idx := rfl
@[simp] theorem State.setDisp_pc (d : Display) : (s.setDisp d).pc = s.pc := rfl
@[simp] theorem State.setDisp_stack (d : Display) : (s.setDisp d).stack = s.stack := rfl
@[simp] theorem State.setDisp_sp (d : Display) : (s.setDisp d).sp = s.sp := rfl
@[simp] theorem State.setDisp_disp (d : Display) : (s.setDisp d).disp = d := rfl
@[simp] theorem State.setDisp_keys (d : Display) : (s.setDisp d).keys = s.keys := rfl
@[simp] theorem State.setDisp_dt (d : Display) : (s.setDisp d).dt = s.dt := rfl
@[simp] theorem State.setDisp_st (d : Display) : (s.setDisp d).st = s.st := rfl
@[simp] theorem State.setDisp_draws (d : Display) : (s.setDisp d).draws = s.draws := rfl
@[simp] theorem State.setDisp_v (d : Display) (i : Reg) : (s.setDisp d).v i = s.v i := rfl
@[simp] theorem State.setDisp_byte (d : Display) (a : Nat) : (s.setDisp d).byte a = s.byte a := rfl
@[simp] theorem State.setDisp_key (d : Display) (k : Fin 16) : (s.setDisp d).key k = s.key k := rfl
@[simp] theorem State.setDisp_entry (d : Display) (k : Fin 16) : (s.setDisp d).entry k = s.entry k := rfl

/-! ## `setKeys` -/

@[simp] theorem State.setKeys_mem (x : Keys) : (s.setKeys x).mem = s.mem := rfl
@[simp] theorem State.setKeys_regs (x : Keys) : (s.setKeys x).regs = s.regs := rfl
@[simp] theorem State.setKeys_idx (x : Keys) : (s.setKeys x).idx = s.idx := rfl
@[simp] theorem State.setKeys_pc (x : Keys) : (s.setKeys x).pc = s.pc := rfl
@[simp] theorem State.setKeys_stack (x : Keys) : (s.setKeys x).stack = s.stack := rfl
@[simp] theorem State.setKeys_sp (x : Keys) : (s.setKeys x).sp = s.sp := rfl
@[simp] theorem State.setKeys_disp (x : Keys) : (s.setKeys x).disp = s.disp := rfl
@[simp] theorem State.setKeys_keys (x : Keys) : (s.setKeys x).keys = x := rfl
@[simp] theorem State.setKeys_dt (x : Keys) : (s.setKeys x).dt = s.dt := rfl
@[simp] theorem State.setKeys_st (x : Keys) : (s.setKeys x).st = s.st := rfl
@[simp] theorem State.setKeys_draws (x : Keys) : (s.setKeys x).draws = s.draws := rfl
@[simp] theorem State.setKeys_v (x : Keys) (i : Reg) : (s.setKeys x).v i = s.v i := rfl
@[simp] theorem State.setKeys_byte (x : Keys) (a : Nat) : (s.setKeys x).byte a = s.byte a := rfl
@[simp] theorem State.setKeys_pixel (x : Keys) (r : Fin 32) (c : Fin 64) : (s.setKeys x).pixel r c = s.pixel r c := rfl
@[simp] theorem State.setKeys_entry (x : Keys) (k : Fin 16) : (s.setKeys x).entry k = s.entry k := rfl

/-! ## `setDt` -/

@[simp] theorem State.setDt_mem (b : Byte) : (s.setDt b).mem = s.mem := rfl
@[simp] theorem State.setDt_regs (b : Byte) : (s.setDt b).regs = s.regs := rfl
@[simp] theorem State.setDt_idx (b : Byte) : (s.setDt b).idx = s.idx := rfl
@[simp] theorem State.setDt_pc (b : Byte) : (s.setDt b).pc = s.pc := rfl
@[simp] theorem State.setDt_stack (b : Byte) : (s.setDt b).stack = s.stack := rfl
@[simp] theorem State.setDt_sp (b : Byte) : (s.setDt b).sp = s.sp := rfl
@[simp] theorem State.setDt_disp (b : Byte) : (s.setDt b).disp = s.disp := rfl
@[simp] theorem State.setDt_keys (b : Byte) : (s.setDt b).keys = s.keys := rfl
@[simp] theorem State.setDt_dt (b : Byte) : (s.setDt b).dt = b := rfl
@[simp] theorem State.setDt_st (b : Byte) : (s.setDt b).st = s.st := rfl
@[simp] theorem State.setDt_draws (b : Byte) : (s.setDt b).draws = s.draws := rfl
@[simp] theorem State.setDt_v (b : Byte) (i : Reg) : (s.setDt b).v i = s.v i := rfl
@[simp] theorem State.setDt_byte (b : Byte) (a : Nat) : (s.setDt b).byte a = s.byte a := rfl
@[simp] theorem State.setDt_pixel (b : Byte) (r : Fin 32) (c : Fin 64) : (s.setDt b).pixel r c = s.pixel r c := rfl
@[simp] theorem State.setDt_key (b : Byte) (k : Fin 16) : (s.setDt b).key k = s.key k := rfl
@[simp] theorem State.setDt_entry (b : Byte) (k : Fin 16) : (s.setDt b).entry k = s.entry k := rfl

/-! ## `setSt` -/

@[simp] theorem State.setSt_mem (b : Byte) : (s.setSt b).mem = s.mem := rfl
@[simp] theorem State.setSt_regs (b : Byte) : (s.setSt b).regs = s.regs := rfl
@[simp] theorem State.setSt_idx (b : Byte) : (s.setSt b).idx = s.idx := rfl
@[simp] theorem State.setSt_pc (b : Byte) : (s.setSt b).pc = s.pc := rfl
@[simp] theorem State.setSt_stack (b : Byte) : (s.setSt b).stack = s.stack := rfl
@[simp] theorem State.setSt_sp (b : Byte) : (s.setSt b).sp = s.sp := rfl
@[simp] theorem State.setSt_disp (b : Byte) : (s.setSt b).disp = s.disp := rfl
@[simp] theorem State.setSt_keys (b : Byte) : (s.setSt b).keys = s.keys := rfl
@[simp] theorem State.setSt_dt (b : Byte) : (s.setSt b).dt = s.dt := rfl
@[simp] theorem State.setSt_st (b : Byte) : (s.setSt b).st = b := rfl
@[simp] theorem State.setSt_draws (b : Byte) : (s.setSt b).draws = s.draws := rfl
@[simp] theorem State.setSt_v (b : Byte) (i : Reg) : (s.setSt b).v i = s.v i := rfl
@[simp] theorem State.setSt_byte (b : Byte) (a : Nat) : (s.setSt b).byte a = s.byte a := rfl
@[simp] theorem State.setSt_pixel (b : Byte) (r : Fin 32) (c : Fin 64) : (s.setSt b).pixel r c = s.pixel r c := rfl
@[simp] theorem State.setSt_key (b : Byte) (k : Fin 16) : (s.setSt b).key k = s.key k := rfl
@[simp] theorem State.setSt_entry (b : Byte) (k : Fin 16) : (s.setSt b).entry k = s.entry k := rfl

/-! ## `countDraw` -/

@[simp] theorem State.countDraw_mem : (s.countDraw).mem = s.mem := rfl
@[simp] theorem State.countDraw_regs : (s.countDraw).regs = s.regs := rfl
@[simp] theorem State.countDraw_idx : (s.countDraw).idx = s.idx := rfl
@[simp] theorem State.countDraw_pc : (s.countDraw).pc = s.pc := rfl
@[simp] theorem State.countDraw_stack : (s.countDraw).stack = s.stack := rfl
@[simp] theorem State.countDraw_sp : (s.countDraw).sp = s.sp := rfl
@[simp] theorem State.countDraw_disp : (s.countDraw).disp = s.disp := rfl
@[simp] theorem State.countDraw_keys : (s.countDraw).keys = s.keys := rfl
@[simp] theorem State.countDraw_dt : (s.countDraw).dt = s.dt := rfl
@[simp] theorem State.countDraw_st : (s.countDraw).st = s.st := rfl
@[simp] theorem State.countDraw_draws : (s.countDraw).draws = s.draws + 1 := rfl
@[simp] theorem State.countDraw_v (i : Reg) : (s.countDraw).v i = s.v i := rfl
@[simp] theorem State.countDraw_byte (a : Nat) : (s.countDraw).byte a = s.byte a := rfl
@[simp] theorem State.countDraw_pixel (r : Fin 32) (c : Fin 64) : (s.countDraw).pixel r c = s.pixel r c := rfl
@[simp] theorem State.countDraw_key (k : Fin 16) : (s.countDraw).key k = s.key k := rfl
@[simp] theorem State.countDraw_entry (k : Fin 16) : (s.countDraw).entry k = s.entry k := rfl

/-! ## `advance` -/

@[simp] theorem State.advance_mem : (s.advance).mem = s.mem := rfl
@[simp] theorem State.advance_regs : (s.advance).regs = s.regs := rfl
@[simp] theorem State.advance_idx : (s.advance).idx = s.idx := rfl
@[simp] theorem State.advance_pc : (s.advance).pc = s.pc + 2 := rfl
@[simp] theorem State.advance_stack : (s.advance).stack = s.stack := rfl
@[simp] theorem State.advance_sp : (s.advance).sp = s.sp := rfl
@[simp] theorem State.advance_disp : (s.advance).disp = s.disp := rfl
@[simp] theorem State.advance_keys : (s.advance).keys = s.keys := rfl
@[simp] theorem State.advance_dt : (s.advance).dt = s.dt := rfl
@[simp] theorem State.advance_st : (s.advance).st = s.st := rfl
@[simp] theorem State.advance_draws : (s.advance).draws = s.draws := rfl
@[simp] theorem State.advance_v (i : Reg) : (s.advance).v i = s.v i := rfl
@[simp] theorem State.advance_byte (a : Nat) : (s.advance).byte a = s.byte a := rfl
@[simp] theorem State.advance_pixel (r : Fin 32) (c : Fin 64) : (s.advance).pixel r c = s.pixel r c := rfl
@[simp] theorem State.advance_key (k : Fin 16) : (s.advance).key k = s.key k := rfl
@[simp] theorem State.advance_entry (k : Fin 16) : (s.advance).entry k = s.entry k := rfl

/-! ## `rewind` -/

@[simp] theorem State.rewind_mem : (s.rewind).mem = s.mem := rfl
@[simp] theorem State.rewind_regs : (s.rewind).regs = s.regs := rfl
@[simp] theorem State.rewind_idx : (s.rewind).idx = s.idx := rfl
@[simp] theorem State.rewind_pc : (s.rewind).pc = s.pc - 2 := rfl
@[simp] theorem State.rewind_stack : (s.rewind).stack = s.stack := rfl
@[simp] theorem State.rewind_sp : (s.rewind).sp = s.sp := rfl
@[simp] theorem State.rewind_disp : (s.rewind).disp = s.disp := rfl
@[simp] theorem State.rewind_keys : (s.rewind).keys = s.keys := rfl
@[simp] theorem State.rewind_dt : (s.rewind).dt = s.dt := rfl
@[simp] theorem State.rewind_st : (s.rewind).st = s.st := rfl
@[simp] theorem State.rewind_draws : (s.rewind).draws = s.draws := rfl
@[simp] theorem State.rewind_v (i : Reg) : (s.rewind).v i = s.v i := rfl
@[simp] theorem State.rewind_byte (a : Nat) : (s.rewind).byte a = s.byte a := rfl
@[simp] theorem State.rewind_pixel (r : Fin 32) (c : Fin 64) : (s.rewind).pixel r c = s.pixel r c := rfl
@[simp] theorem State.rewind_key (k : Fin 16) : (s.rewind).key k = s.key k := rfl
@[simp] theorem State.rewind_entry (k : Fin 16) : (s.rewind).entry k = s.entry k := rfl

/-! ## `push` -/

@[simp] theorem State.push_mem (w : Word) (h : s.sp.val < 16) : (s.push w h).mem = s.mem := rfl
@[simp] theorem State.push_regs (w : Word) (h : s.sp.val < 16) : (s.push w h).regs = s.regs := rfl
@[simp] theorem State.push_idx (w : Word) (h : s.sp.val < 16) : (s.push w h).idx = s.idx := rfl
@[simp] theorem State.push_pc (w : Word) (h : s.sp.val < 16) : (s.push w h).pc = s.pc := rfl
@[simp] theorem State.push_stack (w : Word) (h : s.sp.val < 16) : (s.push w h).stack = s.stack.set s.sp.val w := rfl
@[simp] theorem State.push_disp (w : Word) (h : s.sp.val < 16) : (s.push w h).disp = s.disp := rfl
@[simp] theorem State.push_keys (w : Word) (h : s.sp.val < 16) : (s.push w h).keys = s.keys := rfl
@[simp] theorem State.push_dt (w : Word) (h : s.sp.val < 16) : (s.push w h).dt = s.dt := rfl
@[simp] theorem State.push_st (w : Word) (h : s.sp.val < 16) : (s.push w h).st = s.st := rfl
@[simp] theorem State.push_draws (w : Word) (h : s.sp.val < 16) : (s.push w h).draws = s.draws := rfl
@[simp] theorem State.push_sp (w : Word) (h : s.sp.val < 16) : (s.push w h).sp.val = s.sp.val + 1 := rfl
@[simp] theorem State.push_v (w : Word) (h : s.sp.val < 16) (i : Reg) : (s.push w h).v i = s.v i := rfl
@[simp] theorem State.push_byte (w : Word) (h : s.sp.val < 16) (a : Nat) : (s.push w h).byte a = s.byte a := rfl
@[simp] theorem State.push_pixel (w : Word) (h : s.sp.val < 16) (r : Fin 32) (c : Fin 64) : (s.push w h).pixel r c = s.pixel r c := rfl
@[simp] theorem State.push_key (w : Word) (h : s.sp.val < 16) (k : Fin 16) : (s.push w h).key k = s.key k := rfl

/-! ## `drop` -/

@[simp] theorem State.drop_mem : (s.drop).mem = s.mem := rfl
@[simp] theorem State.drop_regs : (s.drop).regs = s.regs := rfl
@[simp] theorem State.drop_idx : (s.drop).idx = s.idx := rfl
@[simp] theorem State.drop_pc : (s.drop).pc = s.pc := rfl
@[simp] theorem State.drop_stack : (s.drop).stack = s.stack := rfl
@[simp] theorem State.drop_disp : (s.drop).disp = s.disp := rfl
@[simp] theorem State.drop_keys : (s.drop).keys = s.keys := rfl
@[simp] theorem State.drop_dt : (s.drop).dt = s.dt := rfl
@[simp] theorem State.drop_st : (s.drop).st = s.st := rfl
@[simp] theorem State.drop_draws : (s.drop).draws = s.draws := rfl
@[simp] theorem State.drop_sp : s.drop.sp.val = s.sp.val - 1 := rfl
@[simp] theorem State.drop_v (i : Reg) : (s.drop).v i = s.v i := rfl
@[simp] theorem State.drop_byte (a : Nat) : (s.drop).byte a = s.byte a := rfl
@[simp] theorem State.drop_pixel (r : Fin 32) (c : Fin 64) : (s.drop).pixel r c = s.pixel r c := rfl
@[simp] theorem State.drop_key (k : Fin 16) : (s.drop).key k = s.key k := rfl
@[simp] theorem State.drop_entry (k : Fin 16) : (s.drop).entry k = s.entry k := rfl

/-! ## Updates that touch what an accessor reads -/

@[simp] theorem State.setV_v (j i : Reg) (b : Byte) : (s.setV j b).v i = if i = j then b else s.v i := by
  simp only [State.v, State.setV, Vector.getElem_set, Fin.ext_iff, eq_comm]

@[simp] theorem State.setRegs_v (x : Regs) (i : Reg) : (s.setRegs x).v i = x[i.val] := rfl
@[simp] theorem State.setMem_byte (m : Memory) (a : Nat) : (s.setMem m).byte a = m.read a := rfl
@[simp] theorem State.setDisp_pixel (d : Display) (r : Fin 32) (c : Fin 64) :
    (s.setDisp d).pixel r c = d[r.val][c.val] := rfl
@[simp] theorem State.setKeys_key (x : Keys) (k : Fin 16) : (s.setKeys x).key k = x[k.val] := rfl

@[simp] theorem State.push_entry (w : Word) (h : s.sp.val < 16) (k : Fin 16) :
    (s.push w h).entry k = if k.val = s.sp.val then w else s.entry k := by
  simp only [State.entry, State.push, Vector.getElem_set, eq_comm]

/-! ## `skipIf` and `setFlag` -/

theorem State.skipIf_pc (c : Bool) : (s.skipIf c).pc = if c then s.pc + 2 else s.pc := by cases c <;> rfl
@[simp] theorem State.skipIf_mem (c : Bool) : (s.skipIf c).mem = s.mem := by cases c <;> rfl
@[simp] theorem State.skipIf_regs (c : Bool) : (s.skipIf c).regs = s.regs := by cases c <;> rfl
@[simp] theorem State.skipIf_idx (c : Bool) : (s.skipIf c).idx = s.idx := by cases c <;> rfl
@[simp] theorem State.skipIf_stack (c : Bool) : (s.skipIf c).stack = s.stack := by cases c <;> rfl
@[simp] theorem State.skipIf_sp (c : Bool) : (s.skipIf c).sp = s.sp := by cases c <;> rfl
@[simp] theorem State.skipIf_disp (c : Bool) : (s.skipIf c).disp = s.disp := by cases c <;> rfl
@[simp] theorem State.skipIf_keys (c : Bool) : (s.skipIf c).keys = s.keys := by cases c <;> rfl
@[simp] theorem State.skipIf_dt (c : Bool) : (s.skipIf c).dt = s.dt := by cases c <;> rfl
@[simp] theorem State.skipIf_st (c : Bool) : (s.skipIf c).st = s.st := by cases c <;> rfl
@[simp] theorem State.skipIf_draws (c : Bool) : (s.skipIf c).draws = s.draws := by cases c <;> rfl
@[simp] theorem State.skipIf_v (q : Bool) (i : Reg) : (s.skipIf q).v i = s.v i := by cases q <;> rfl
@[simp] theorem State.skipIf_byte (q : Bool) (a : Nat) : (s.skipIf q).byte a = s.byte a := by cases q <;> rfl
@[simp] theorem State.skipIf_pixel (q : Bool) (r : Fin 32) (c : Fin 64) : (s.skipIf q).pixel r c = s.pixel r c := by cases q <;> rfl
@[simp] theorem State.skipIf_key (q : Bool) (k : Fin 16) : (s.skipIf q).key k = s.key k := by cases q <;> rfl
@[simp] theorem State.skipIf_entry (q : Bool) (k : Fin 16) : (s.skipIf q).entry k = s.entry k := by cases q <;> rfl

@[simp] theorem State.setFlag_mem (c : Bool) : (s.setFlag c).mem = s.mem := rfl
@[simp] theorem State.setFlag_idx (c : Bool) : (s.setFlag c).idx = s.idx := rfl
@[simp] theorem State.setFlag_pc (c : Bool) : (s.setFlag c).pc = s.pc := rfl
@[simp] theorem State.setFlag_stack (c : Bool) : (s.setFlag c).stack = s.stack := rfl
@[simp] theorem State.setFlag_sp (c : Bool) : (s.setFlag c).sp = s.sp := rfl
@[simp] theorem State.setFlag_disp (c : Bool) : (s.setFlag c).disp = s.disp := rfl
@[simp] theorem State.setFlag_keys (c : Bool) : (s.setFlag c).keys = s.keys := rfl
@[simp] theorem State.setFlag_dt (c : Bool) : (s.setFlag c).dt = s.dt := rfl
@[simp] theorem State.setFlag_st (c : Bool) : (s.setFlag c).st = s.st := rfl
@[simp] theorem State.setFlag_draws (c : Bool) : (s.setFlag c).draws = s.draws := rfl
@[simp] theorem State.setFlag_byte (q : Bool) (a : Nat) : (s.setFlag q).byte a = s.byte a := rfl
@[simp] theorem State.setFlag_pixel (q : Bool) (r : Fin 32) (c : Fin 64) : (s.setFlag q).pixel r c = s.pixel r c := rfl
@[simp] theorem State.setFlag_key (q : Bool) (k : Fin 16) : (s.setFlag q).key k = s.key k := rfl
@[simp] theorem State.setFlag_entry (q : Bool) (k : Fin 16) : (s.setFlag q).entry k = s.entry k := rfl

@[simp] theorem State.setFlag_v (c : Bool) (i : Reg) :
    (s.setFlag c).v i = if i = 15 then b2n c else s.v i := by simp [State.setFlag]

@[simp] theorem b2n_true : b2n true = 1 := rfl
@[simp] theorem b2n_false : b2n false = 0 := rfl

/-! ## Two states are equal when their fields are -/

@[ext] theorem State.ext_fields {s t : State} (mem : s.mem = t.mem) (regs : s.regs = t.regs)
    (idx : s.idx = t.idx) (pc : s.pc = t.pc) (stack : s.stack = t.stack) (sp : s.sp = t.sp)
    (disp : s.disp = t.disp) (keys : s.keys = t.keys) (dt : s.dt = t.dt) (st : s.st = t.st)
    (draws : s.draws = t.draws) : s = t := by
  cases s; cases t; simp_all

end Sys2Proof.Machine
end

