-- ==== Sys2Proof/Laws/Memory.lean ====
section
/-! SUPPORT. The laws of memory: what a read sees after a write, and that every operation keeps the canonical
form. -/

namespace Sys2Proof.Machine.Memory

theorem read_erase {m : Memory} (h : m.Pairwise (fun c d => c.1 < d.1)) (a b : Nat) :
    (m.erase a).read b = if b = a then background a else m.read b := by
  induction m with
  | nil => simp only [erase, read]; split <;> simp_all
  | cons c m ih =>
    obtain ⟨k, u⟩ := c
    rw [List.pairwise_cons] at h
    have absent : ∀ l : Memory, (∀ d ∈ l, a < d.1) → l.read a = background a := by
      intro l hl
      induction l with
      | nil => rfl
      | cons d l ihl =>
        have := hl d (by simp)
        simp only [read]
        rw [if_neg (by omega)]
        exact ihl fun e he => hl e (by simp [he])
    by_cases hak : a = k
    · subst hak
      simp only [erase, if_true, read]
      by_cases hb : b = a
      · subst hb; simpa using absent m fun d hd => h.1 d hd
      · simp [hb]
    · simp only [erase, if_neg hak, read]
      by_cases hb : b = k
      · subst hb; simp [Ne.symm hak]
      · simp only [if_neg hb, ih h.2]

theorem read_insert (m : Memory) (a b : Nat) (v : Byte) :
    (m.insert a v).read b = if b = a then v else m.read b := by
  induction m with
  | nil => simp [insert, read]
  | cons c m ih =>
    obtain ⟨k, u⟩ := c
    by_cases h1 : a < k
    · simp [insert, h1, read]
    · by_cases h2 : a = k
      · subst h2; simp only [insert, read, lt_irrefl, if_false, if_true]; split <;> rfl
      · simp only [insert, if_neg h1, if_neg h2, read, ih]
        by_cases hb : b = k
        · subst hb; simp [Ne.symm h2]
        · simp [hb]

/-- A read after a write (R36). -/
theorem read_write {m : Memory} (h : m.wf) (a b : Nat) (v : Byte) :
    (m.write a v).read b = if b = a then v else m.read b := by
  unfold write
  split
  · next hv => rw [read_erase h.1, hv]
  · exact read_insert m a b v

theorem erase_sublist (m : Memory) (a : Nat) : (m.erase a).Sublist m := by
  induction m with
  | nil => exact List.Sublist.slnil
  | cons c m ih =>
    obtain ⟨k, u⟩ := c
    simp only [erase]
    split
    · exact List.sublist_cons_self _ _
    · exact ih.cons_cons _

theorem mem_insert {m : Memory} {a : Nat} {v : Byte} {c : Host.Cell} (h : c ∈ m.insert a v) :
    c = (a, v) ∨ c ∈ m := by
  induction m with
  | nil => simpa [insert] using h
  | cons d m ih =>
    obtain ⟨k, u⟩ := d
    simp only [insert] at h
    split at h
    · simpa using h
    · split at h
      · simp only [List.mem_cons] at h ⊢; tauto
      · simp only [List.mem_cons] at h ⊢
        rcases h with h | h
        · exact .inr (.inl h)
        · rcases ih h with h | h <;> tauto

theorem insert_pairwise {m : Memory} (h : m.Pairwise (fun c d => c.1 < d.1)) (a : Nat) (v : Byte) :
    (m.insert a v).Pairwise (fun c d => c.1 < d.1) := by
  induction m with
  | nil => simp [insert]
  | cons c m ih =>
    obtain ⟨k, u⟩ := c
    have hc := List.pairwise_cons.1 h
    simp only [insert]
    split
    · next hak =>
      refine List.pairwise_cons.2 ⟨fun d hd => ?_, h⟩
      rcases List.mem_cons.1 hd with rfl | hd
      · exact hak
      · exact Nat.lt_trans hak (hc.1 d hd)
    · split
      · next hak => subst hak; exact List.pairwise_cons.2 ⟨hc.1, hc.2⟩
      · refine List.pairwise_cons.2 ⟨fun d hd => ?_, ih hc.2⟩
        rcases mem_insert hd with rfl | hd
        · simp only; omega
        · exact hc.1 d hd

/-- A write in the address space keeps the canonical form. -/
theorem write_wf {m : Memory} (h : m.wf) {a : Nat} (ha : a < Config.memSize) (v : Byte) : (m.write a v).wf := by
  unfold write
  split
  · exact ⟨h.1.sublist (erase_sublist m a), fun c hc => h.2 c ((erase_sublist m a).subset hc)⟩
  · next hv =>
    refine ⟨insert_pairwise h.1 a v, fun c hc => ?_⟩
    rcases mem_insert hc with rfl | hc
    · exact ⟨ha, hv⟩
    · exact h.2 c hc

/-- Writing a run of bytes in the address space keeps the canonical form. -/
theorem writeBytes_wf {m : Memory} (h : m.wf) (bs : List Byte) {a : Nat}
    (ha : a + bs.length ≤ Config.memSize ∨ bs = []) : (m.writeBytes a bs).wf := by
  induction bs generalizing m a with
  | nil => exact h
  | cons b bs ih =>
    have hl : a + (bs.length + 1) ≤ Config.memSize := by simpa using ha
    exact ih (write_wf h (by omega) b) (.inl (by omega))

theorem read_erase_of_ne (m : Memory) {a b : Nat} (hb : b ≠ a) : (m.erase a).read b = m.read b := by
  induction m with
  | nil => rfl
  | cons c m ih =>
    obtain ⟨k, u⟩ := c
    simp only [erase]
    split
    · next h => subst h; simp [read, hb]
    · simp only [read, ih]

/-- A write leaves every other byte alone, in any list of cells. -/
theorem read_write_of_ne (m : Memory) {a b : Nat} (hb : b ≠ a) (v : Byte) : (m.write a v).read b = m.read b := by
  unfold write
  split
  · exact read_erase_of_ne m hb
  · simp [read_insert, hb]

/-- A run of writes leaves every byte outside it alone, in any list of cells. -/
theorem read_writeBytes_of_outside (m : Memory) (bs : List Byte) {a b : Nat}
    (hb : ¬(a ≤ b ∧ b < a + bs.length)) : (m.writeBytes a bs).read b = m.read b := by
  induction bs generalizing m a with
  | nil => rfl
  | cons v bs ih =>
    simp only [List.length_cons] at hb
    rw [writeBytes, ih _ (by omega), read_write_of_ne _ (by omega)]

/-- A read after a run of writes: the byte written there, or the old one. -/
theorem read_writeBytes {m : Memory} (h : m.wf) (bs : List Byte) {a : Nat}
    (ha : a + bs.length ≤ Config.memSize ∨ bs = []) (b : Nat) :
    (m.writeBytes a bs).read b = if a ≤ b ∧ b < a + bs.length then bs.getD (b - a) 0 else m.read b := by
  induction bs generalizing m a with
  | nil => simp [writeBytes]
  | cons v bs ih =>
    have hl : a + (bs.length + 1) ≤ Config.memSize := by simpa using ha
    rw [writeBytes, ih (write_wf h (by omega) v) (.inl (by omega)), read_write h]
    simp only [List.length_cons]
    by_cases hb : b = a
    · subst hb; simp
    · by_cases hr : a + 1 ≤ b ∧ b < a + 1 + bs.length
      · rw [if_pos hr, if_pos (by omega)]
        obtain ⟨k, rfl⟩ : ∃ k, b = a + 1 + k := ⟨b - (a + 1), by omega⟩
        rw [show a + 1 + k - (a + 1) = k by omega, show a + 1 + k - a = k + 1 by omega, List.getD_cons_succ]
      · rw [if_neg hr, if_neg hb, if_neg (by omega)]

@[simp] theorem readBytes_length (m : Memory) (a n : Nat) : (m.readBytes a n).length = n := by
  induction n generalizing a with
  | zero => rfl
  | succ n ih => simp [readBytes, ih]

/-- The bytes read are the bytes there, in order. -/
theorem readBytes_getD (m : Memory) (a n k : Nat) (hk : k < n) : (m.readBytes a n).getD k 0 = m.read (a + k) := by
  induction n generalizing a k with
  | zero => omega
  | succ n ih =>
    cases k with
    | zero => simp [readBytes]
    | succ k =>
      rw [readBytes, List.getD_cons_succ, ih (a + 1) k (by omega)]
      congr 1
      omega

/-- A listed byte is what the list says. -/
theorem read_of_mem {m : Memory} (h : m.wf) {c : Host.Cell} (hc : c ∈ m) : m.read c.1 = c.2 := by
  obtain ⟨hp, -⟩ := h
  induction m with
  | nil => simp at hc
  | cons d m ih =>
    obtain ⟨k, u⟩ := d
    rw [List.pairwise_cons] at hp
    rcases List.mem_cons.1 hc with rfl | hc
    · simp [read]
    · have := hp.1 c hc
      simp only [read]
      rw [if_neg (by simp only at this; omega)]
      exact ih hc hp.2

/-- An unlisted byte is at its reset contents. -/
theorem read_of_not_mem {m : Memory} {a : Nat} (h : ∀ c ∈ m, c.1 ≠ a) : m.read a = background a := by
  induction m with
  | nil => rfl
  | cons d m ih =>
    obtain ⟨k, u⟩ := d
    have := h (k, u) (by simp)
    simp only [read]
    rw [if_neg (Ne.symm this)]
    exact ih fun c hc => h c (by simp [hc])

end Sys2Proof.Machine.Memory
end

