-- ==== Sys2Proof/Laws/Ops.lean ====
section
/-! SUPPORT. One lemma per shared operation and operand form: everything it can do, or its value as a number. -/

namespace Sys2Proof.Machine

/-! ## Outcomes -/

@[simp] theorem raise_ne_next (f : Fault) (t : State) : (raise f = .next t) ↔ False := by simp [raise]
@[simp] theorem raise_eq_fault (f g : Fault) : (raise f = (.fault g : Out)) ↔ f = g := by simp [raise]
@[simp] theorem raise_ne_refused (f : Fault) (r : Refusal) : (raise f = .refused r) ↔ False := by simp [raise]

/-! ## Bounds-checked access -/

theorem inBounds_iff (base count : Nat) : inBounds base count = true ↔ count = 0 ∨ base + count ≤ 4096 := by
  simp only [inBounds, Bool.or_eq_true, beq_iff_eq, decide_eq_true_eq]
  rw [memSize_eq]

theorem fetchable_iff (s : State) : s.fetchable = true ↔ s.pc.toNat ≤ 0xFFE := by
  simp only [State.fetchable, inBounds_iff, instrBytes_eq]
  omega

theorem guardAccess_of_inBounds {base count : Nat} (h : inBounds base count = true) (k : Out) :
    guardAccess base count k = k := by simp [guardAccess, h]

theorem guardAccess_out {base count : Nat} (h : inBounds base count = false) (k : Out) :
    guardAccess base count k = .fault (.memoryFault (max base 4096)) := by simp [guardAccess, h, raise]

/-- `guardAccess` goes on exactly in bounds. -/
theorem guardAccess_next {base count : Nat} {k : Out} {t : State} :
    guardAccess base count k = .next t ↔ inBounds base count = true ∧ k = .next t := by
  unfold guardAccess
  split <;> simp_all

/-- `guardAccess` faults out of bounds, or as what it guards does. -/
theorem guardAccess_fault {base count : Nat} {k : Out} {f : Fault} :
    guardAccess base count k = .fault f ↔
      inBounds base count = false ∧ f = .memoryFault (max base 4096) ∨ inBounds base count = true ∧ k = .fault f := by
  unfold guardAccess
  split <;> simp_all [raise, eq_comm (a := f)]

theorem guardAccess_refused {base count : Nat} {k : Out} {r : Refusal} :
    guardAccess base count k = .refused r ↔ inBounds base count = true ∧ k = .refused r := by
  unfold guardAccess
  split <;> simp_all

theorem storeBytes_next {s t : State} {base : Nat} {bs : List Byte} :
    s.storeBytes base bs = .next t ↔
      inBounds base bs.length = true ∧ t = s.setMem (s.mem.writeBytes base bs) := by
  simp [State.storeBytes, guardAccess_next, eq_comm (a := t)]

theorem storeBytes_fault {s : State} {base : Nat} {bs : List Byte} {f : Fault} :
    s.storeBytes base bs = .fault f ↔ inBounds base bs.length = false ∧ f = .memoryFault (max base 4096) := by
  simp [State.storeBytes, guardAccess_fault]

theorem storeBytes_ne_refused {s : State} {base : Nat} {bs : List Byte} {r : Refusal} :
    s.storeBytes base bs ≠ .refused r := by
  simp [State.storeBytes, guardAccess_refused]

theorem loadBytes_next {s t : State} {base n : Nat} {k : List Byte → Out} :
    s.loadBytes base n k = .next t ↔ inBounds base n = true ∧ k (s.mem.readBytes base n) = .next t := by
  simp [State.loadBytes, guardAccess_next]

theorem loadBytes_fault {s : State} {base n : Nat} {k : List Byte → Out} {f : Fault} :
    s.loadBytes base n k = .fault f ↔
      inBounds base n = false ∧ f = .memoryFault (max base 4096) ∨
        inBounds base n = true ∧ k (s.mem.readBytes base n) = .fault f := by
  simp [State.loadBytes, guardAccess_fault]

/-! ## Registers in a run -/

theorem load_getElem (bs : List Byte) (r : Regs) (k i : Nat) (hi : i < 16) :
    (Regs.load r k bs)[i] = if k ≤ i ∧ i < k + bs.length then bs.getD (i - k) 0 else r[i] := by
  induction bs generalizing r k with
  | nil => simp only [Regs.load, List.length_nil]; rw [if_neg (by omega)]
  | cons b bs ih =>
    rw [Regs.load, ih]
    simp only [List.length_cons]
    by_cases h : k = i
    · subst h; simp
    · by_cases hr : k + 1 ≤ i ∧ i < k + 1 + bs.length
      · rw [if_pos hr, if_pos (by omega)]
        obtain ⟨j, rfl⟩ : ∃ j, i = k + 1 + j := ⟨i - (k + 1), by omega⟩
        rw [show k + 1 + j - (k + 1) = j by omega, show k + 1 + j - k = j + 1 by omega, List.getD_cons_succ]
      · rw [if_neg hr, if_neg (by omega)]
        simp [h]

@[simp] theorem regsUpTo_length (s : State) (x : Reg) : (s.regsUpTo x).length = x.val + 1 := by
  simp [State.regsUpTo]

theorem regsUpTo_getD (s : State) (x i : Reg) (h : i ≤ x) : (s.regsUpTo x).getD i.val 0 = s.v i := by
  have : i.val < x.val + 1 := Nat.lt_succ_of_le h
  simp [State.regsUpTo, State.v, List.getD_eq_getElem?_getD, this]

/-! ## Immediates and addresses -/

@[simp] theorem zextAddr_toNat (a : Addr) : (zextAddr a).toNat = a.toNat := by
  have := a.isLt
  simp only [zextAddr, BitVec.toNat_ofNat]
  omega

@[simp] theorem zextByte_toNat (b : Byte) : (zextByte b).toNat = b.toNat := by
  have := b.isLt
  simp only [zextByte, BitVec.toNat_ofNat]
  omega

theorem offsetTarget_toNat (s : State) (a : Addr) : (s.offsetTarget a).toNat = a.toNat + (s.v 0).toNat := by
  have := a.isLt
  have := (s.v 0).isLt
  simp only [State.offsetTarget, BitVec.toNat_add, zextAddr_toNat, zextByte_toNat]
  omega

theorem glyphAddr_toNat (b : Byte) : (glyphAddr b).toNat = 5 * (b.toNat % 16) := by
  simp only [glyphAddr, fontBase_eq, glyphRows_eq, BitVec.toNat_ofNat]
  omega

/-! ## Byte arithmetic -/

theorem sumByte_toNat (a b : Byte) : (sumByte a b).toNat = (a.toNat + b.toNat) % 256 := by
  simp [sumByte]

theorem diffByte_toInt (a b : Byte) : ((diffByte a b).toNat : Int) = ((a.toNat : Int) - b.toNat) % 256 := by
  have : (0 : Int) ≤ ((a.toNat : Int) - b.toNat) % 256 := Int.emod_nonneg _ (by decide)
  simp only [diffByte, BitVec.toNat_ofInt]
  omega

theorem sumIdx_toNat (i : Word) (b : Byte) : (sumIdx i b).toNat = (i.toNat + b.toNat) % 65536 := by
  simp [sumIdx]

theorem b2n_toNat (c : Bool) : (b2n c).toNat = if c then 1 else 0 := by cases c <;> rfl

theorem lowBit_toNat (a : Byte) : (lowBit a).toNat = a.toNat % 2 := by
  rw [lowBit, BitVec.toNat_and, show (0x01 : Byte).toNat = 2 ^ 1 - 1 from rfl, Nat.and_two_pow_sub_one_eq_mod]

theorem highBit_toNat (a : Byte) : (highBit a).toNat = a.toNat / 128 := by
  simp [highBit, BitVec.toNat_ushiftRight, Nat.shiftRight_eq_div_pow]

theorem shiftRight_toNat (a : Byte) : (shiftRight a).toNat = a.toNat / 2 := by
  simp [shiftRight, BitVec.toNat_ushiftRight, Nat.shiftRight_eq_div_pow]

theorem shiftLeft_toNat (a : Byte) : (shiftLeft a).toNat = 2 * a.toNat % 256 := by
  simp only [shiftLeft, BitVec.toNat_shiftLeft, Nat.shiftLeft_eq]
  omega

@[simp] theorem bcdDigits_length (b : Byte) : (bcdDigits b).length = 3 := rfl

/-! ## Keys -/

theorem keyOf_of_lt {b : Byte} (h : b.toNat < 16) : keyOf b = some ⟨b.toNat, h⟩ := by simp [keyOf, h]

theorem keyOf_of_ge {b : Byte} (h : 16 ≤ b.toNat) : keyOf b = none := by simp [keyOf, h]

theorem withKey_of_lt (s : State) {b : Byte} (h : b.toNat < 16) (k : Bool → Out) :
    s.withKey b k = k (s.key ⟨b.toNat, h⟩) := by simp [State.withKey, keyOf_of_lt h]

theorem withKey_of_ge (s : State) {b : Byte} (h : 16 ≤ b.toNat) (k : Bool → Out) :
    s.withKey b k = .fault (.invalidKeyIndex b.toNat) := by simp [State.withKey, keyOf_of_ge h, raise]

theorem firstPressed_none (s : State) : s.firstPressed = none ↔ ∀ k, s.key k = false := by
  simp [State.firstPressed]

/-- The key found is pressed and no lower one is. -/
theorem firstPressed_some (s : State) (k : Fin 16) :
    s.firstPressed = some k ↔ s.key k = true ∧ ∀ j < k, s.key j = false := by
  rw [State.firstPressed, List.find?_eq_some_iff_getElem]
  simp only [List.getElem_finRange, List.length_finRange, Bool.not_eq_eq_eq_not, Bool.not_true]
  constructor
  · rintro ⟨hk, i, hi, rfl, h⟩
    exact ⟨hk, fun j hj => h j.val hj⟩
  · rintro ⟨hk, h⟩
    exact ⟨hk, k.val, k.isLt, rfl, fun j hj => h ⟨j, by omega⟩ hj⟩

end Sys2Proof.Machine
end

