-- ==== Sys2Proof/Laws/Display.lean ====
section
/-! SUPPORT. What drawing a sprite does to each pixel and to the collision flag, in closed form
(spec/45_display.md R117: no pixel is toggled twice, so the result does not depend on the loops' order). -/

namespace Sys2Proof.Machine

/-- Column offset `j` of a sprite row `b` at column `ox` is a 1 bit over column `c`. -/
abbrev ColHits (ox : Nat) (b : Byte) (c : Fin 64) (j : Nat) : Prop :=
  j < 8 ∧ c.val = (ox + j) % 64 ∧ spriteBit b j = true

theorem wrapCol_val (n : Nat) : (wrapCol n).val = n % 64 := rfl
theorem wrapRow_val (n : Nat) : (wrapRow n).val = n % 32 := rfl

theorem togglePixel_pixel (g : Drawing) (r r' : Fin 32) (c c' : Fin 64) :
    (togglePixel g r c).1[r'.val][c'.val] =
      if r' = r ∧ c' = c then !g.1[r'.val][c'.val] else g.1[r'.val][c'.val] := by
  simp only [togglePixel, Vector.getElem_set, Fin.ext_iff]
  by_cases hr : r.val = r'.val
  · by_cases hc : c.val = c'.val
    · simp [hr, hc]
    · simp [hr, hc, Ne.symm hc]
  · simp [hr, Ne.symm hr]

theorem drawCols_pixel (row : Fin 32) (ox : Nat) (b : Byte) (k : Nat) (hk : k ≤ 8) (g : Drawing) (r : Fin 32)
    (c : Fin 64) :
    ((r = row ∧ ∃ j, 8 - k ≤ j ∧ ColHits ox b c j) →
        (drawCols row ox b k g).1[r.val][c.val] = !g.1[r.val][c.val]) ∧
      (¬(r = row ∧ ∃ j, 8 - k ≤ j ∧ ColHits ox b c j) →
        (drawCols row ox b k g).1[r.val][c.val] = g.1[r.val][c.val]) := by
  induction k generalizing g with
  | zero =>
    refine ⟨?_, fun _ => rfl⟩
    rintro ⟨-, j, h1, h2, -⟩
    omega
  | succ k ih =>
    simp only [drawCols]
    have ih := ih (by omega) (if spriteBit b (7 - k) then togglePixel g row (wrapCol (ox + (7 - k))) else g)
    have start : (if spriteBit b (7 - k) then togglePixel g row (wrapCol (ox + (7 - k))) else g).1[r.val][c.val]
        = if r = row ∧ ColHits ox b c (7 - k) then !g.1[r.val][c.val] else g.1[r.val][c.val] := by
      by_cases hb : spriteBit b (7 - k)
      · rw [if_pos hb, togglePixel_pixel]
        have : (r = row ∧ c = wrapCol (ox + (7 - k))) ↔ (r = row ∧ ColHits ox b c (7 - k)) := by
          simp only [ColHits, hb, and_true, Fin.ext_iff, wrapCol_val]
          constructor <;> rintro ⟨h1, h2⟩
          · exact ⟨h1, by omega, h2⟩
          · exact ⟨h1, h2.2⟩
        simp only [this]
      · rw [if_neg hb, if_neg (by rintro ⟨-, -, -, h⟩; exact hb h)]
    rw [start] at ih
    by_cases here : r = row ∧ ColHits ox b c (7 - k)
    · have later : ¬(r = row ∧ ∃ j, 8 - k ≤ j ∧ ColHits ox b c j) := by
        rintro ⟨-, j, hj, hj8, hjc, -⟩
        have := here.2.2.1
        omega
      rw [ih.2 later, if_pos here]
      refine ⟨fun _ => rfl, fun h => absurd ⟨here.1, 7 - k, by omega, here.2⟩ h⟩
    · rw [if_neg here] at ih
      refine ⟨?_, fun h => ih.2 fun ⟨hr, j, hj, hc⟩ => h ⟨hr, j, by omega, hc⟩⟩
      rintro ⟨hr, j, hj, hc⟩
      refine ih.1 ⟨hr, j, ?_, hc⟩
      by_contra h
      exact here ⟨hr, by rwa [show 7 - k = j by omega]⟩

theorem drawCols_hit (row : Fin 32) (ox : Nat) (b : Byte) (k : Nat) (hk : k ≤ 8) (g : Drawing) :
    (drawCols row ox b k g).2 = true ↔
      g.2 = true ∨ ∃ c, (∃ j, 8 - k ≤ j ∧ ColHits ox b c j) ∧ g.1[row.val][c.val] = true := by
  induction k generalizing g with
  | zero =>
    refine ⟨.inl, ?_⟩
    rintro (h | ⟨c, ⟨j, h1, h2, -⟩, -⟩)
    · exact h
    · omega
  | succ k ih =>
    simp only [drawCols]
    rw [ih (by omega)]
    by_cases hb : spriteBit b (7 - k)
    · rw [if_pos hb]
      have hits : ColHits ox b (wrapCol (ox + (7 - k))) (7 - k) := ⟨by omega, rfl, hb⟩
      constructor
      · rintro (h | ⟨c, ⟨j, hj, hc⟩, hp⟩)
        · simp only [togglePixel, Bool.or_eq_true] at h
          rcases h with h | h
          · exact .inl h
          · exact .inr ⟨_, ⟨7 - k, by omega, hits⟩, h⟩
        · rw [togglePixel_pixel, if_neg] at hp
          · exact .inr ⟨c, ⟨j, by omega, hc⟩, hp⟩
          · rintro ⟨-, rfl⟩
            have := hc.2.1
            rw [wrapCol_val] at this
            have := hc.1
            omega
      · rintro (h | ⟨c, ⟨j, hj, hc⟩, hp⟩)
        · exact .inl (by simp [togglePixel, h])
        · by_cases hj' : j = 7 - k
          · subst hj'
            have : c = wrapCol (ox + (7 - k)) := Fin.ext hc.2.1
            subst this
            exact .inl (by simp [togglePixel, hp])
          · refine .inr ⟨c, ⟨j, by omega, hc⟩, ?_⟩
            rw [togglePixel_pixel, if_neg, hp]
            rintro ⟨-, rfl⟩
            have := hc.2.1
            rw [wrapCol_val] at this
            have := hc.1
            omega
    · rw [if_neg hb]
      constructor
      · rintro (h | ⟨c, ⟨j, hj, hc⟩, hp⟩)
        · exact .inl h
        · exact .inr ⟨c, ⟨j, by omega, hc⟩, hp⟩
      · rintro (h | ⟨c, ⟨j, hj, hc⟩, hp⟩)
        · exact .inl h
        · refine .inr ⟨c, ⟨j, ?_, hc⟩, hp⟩
          by_contra h
          exact hb (by rw [show 7 - k = j by omega]; exact hc.2.2)

/-- A sprite of rows `bs` at column `ox`, row `oy` has a 1 bit over the pixel `(r, c)`. -/
def Covers (ox oy : Nat) (bs : List Byte) (r : Fin 32) (c : Fin 64) : Prop :=
  ∃ k, k < bs.length ∧ r.val = (oy + k) % 32 ∧ ∃ j, ColHits ox (bs.getD k 0) c j

theorem covers_cons (ox oy : Nat) (b : Byte) (bs : List Byte) (r : Fin 32) (c : Fin 64) :
    Covers ox oy (b :: bs) r c ↔ (r = wrapRow oy ∧ ∃ j, ColHits ox b c j) ∨ Covers ox (oy + 1) bs r c := by
  constructor
  · rintro ⟨k, hk, hr, hc⟩
    cases k with
    | zero => exact .inl ⟨Fin.ext hr, hc⟩
    | succ k => exact .inr ⟨k, by simpa using hk, by rw [hr]; congr 1; omega, hc⟩
  · rintro (⟨rfl, hc⟩ | ⟨k, hk, hr, hc⟩)
    · exact ⟨0, by simp, rfl, hc⟩
    · exact ⟨k + 1, by simpa using hk, by rw [hr]; congr 1; omega, hc⟩

/-- No row of a sprite of at most 32 rows is drawn over another. -/
theorem not_covers_next (ox oy : Nat) (bs : List Byte) (h : bs.length < 32) (c : Fin 64) :
    ¬Covers ox (oy + 1) bs (wrapRow oy) c := by
  rintro ⟨k, hk, hr, -⟩
  rw [wrapRow_val] at hr
  omega

/-- Each pixel is toggled exactly when the sprite covers it. -/
theorem drawRows_pixel (ox oy : Nat) (bs : List Byte) (h : bs.length ≤ 32) (g : Drawing) (r : Fin 32) (c : Fin 64) :
    (Covers ox oy bs r c → (drawRows ox oy bs g).1[r.val][c.val] = !g.1[r.val][c.val]) ∧
      (¬Covers ox oy bs r c → (drawRows ox oy bs g).1[r.val][c.val] = g.1[r.val][c.val]) := by
  induction bs generalizing oy g with
  | nil => exact ⟨fun ⟨k, hk, _⟩ => by simp at hk, fun _ => rfl⟩
  | cons b bs ih =>
    simp only [List.length_cons] at h
    have ih := ih (oy + 1) (by omega) (drawCols (wrapRow oy) ox b 8 g)
    have first := drawCols_pixel (wrapRow oy) ox b 8 (by omega) g r c
    simp only [Nat.sub_self, Nat.zero_le, true_and] at first
    rw [covers_cons]
    simp only [drawRows]
    by_cases here : r = wrapRow oy ∧ ∃ j, ColHits ox b c j
    · have later : ¬Covers ox (oy + 1) bs r c := by
        rw [here.1]
        exact not_covers_next ox oy bs (by omega) c
      exact ⟨fun _ => by rw [ih.2 later, first.1 here], fun hn => absurd (.inl here) hn⟩
    · refine ⟨fun hc => ?_, fun hn => ?_⟩
      · rw [ih.1 (hc.resolve_left here), first.2 here]
      · rw [ih.2 fun hc => hn (.inr hc), first.2 here]

/-- `hit` is set exactly when the sprite covers a pixel that was lit. -/
theorem drawRows_hit (ox oy : Nat) (bs : List Byte) (h : bs.length ≤ 32) (g : Drawing) :
    (drawRows ox oy bs g).2 = true ↔
      g.2 = true ∨ ∃ r c, Covers ox oy bs r c ∧ g.1[r.val][c.val] = true := by
  induction bs generalizing oy g with
  | nil =>
    refine ⟨.inl, ?_⟩
    rintro (h | ⟨r, c, ⟨k, hk, -⟩, -⟩)
    · exact h
    · simp at hk
  | cons b bs ih =>
    simp only [List.length_cons] at h
    simp only [drawRows]
    rw [ih (oy + 1) (by omega), drawCols_hit _ _ _ _ (by omega)]
    simp only [Nat.sub_self, Nat.zero_le, true_and, covers_cons]
    have same : ∀ r c, Covers ox (oy + 1) bs r c →
        (drawCols (wrapRow oy) ox b 8 g).1[r.val][c.val] = g.1[r.val][c.val] := by
      intro r c hc
      refine (drawCols_pixel (wrapRow oy) ox b 8 (by omega) g r c).2 ?_
      rintro ⟨rfl, -⟩
      exact not_covers_next ox oy bs (by omega) c hc
    constructor
    · rintro ((h | ⟨c, hc, hp⟩) | ⟨r, c, hc, hp⟩)
      · exact .inl h
      · exact .inr ⟨wrapRow oy, c, .inl ⟨rfl, hc⟩, hp⟩
      · exact .inr ⟨r, c, .inr hc, by rwa [same r c hc] at hp⟩
    · rintro (h | ⟨r, c, ⟨rfl, hc⟩ | hc, hp⟩)
      · exact .inl (.inl h)
      · exact .inl (.inr ⟨c, hc, hp⟩)
      · exact .inr ⟨r, c, hc, by rwa [same r c hc]⟩

end Sys2Proof.Machine
end

