-- ==== Sys2Proof/Laws/Cycle.lean ====
section
/-! SUPPORT. The arms of the execute stage in terms of the shared operations, and everything a cycle can do. -/

namespace Sys2Proof.Machine

variable (s : State) (x y : Reg) (nn : Byte) (nnn : Addr) (n : Nibble)

/-! ## The arms -/

theorem exec_nop : exec .nop s = .next s := rfl
theorem exec_cls : exec .cls s = .next (s.setDisp clearDisplay) := rfl
theorem exec_jp : exec (.jp nnn) s = .next (s.setPc (zextAddr nnn)) := rfl
theorem exec_jpV0 : exec (.jpV0 nnn) s = .next (s.setPc (s.offsetTarget nnn)) := rfl
theorem exec_seI : exec (.seI x nn) s = .next (s.skipIf (s.v x == nn)) := rfl
theorem exec_sneI : exec (.sneI x nn) s = .next (s.skipIf (s.v x != nn)) := rfl
theorem exec_seR : exec (.seR x y) s = .next (s.skipIf (s.v x == s.v y)) := rfl
theorem exec_sneR : exec (.sneR x y) s = .next (s.skipIf (s.v x != s.v y)) := rfl
theorem exec_ldI : exec (.ldI x nn) s = .next (s.setV x nn) := rfl
theorem exec_addI : exec (.addI x nn) s = .next (s.setV x (sumByte (s.v x) nn)) := rfl
theorem exec_ldR : exec (.ldR x y) s = .next (s.setV x (s.v y)) := rfl
theorem exec_orR : exec (.orR x y) s = .next (s.setV x (s.v x ||| s.v y)) := rfl
theorem exec_andR : exec (.andR x y) s = .next (s.setV x (s.v x &&& s.v y)) := rfl
theorem exec_xorR : exec (.xorR x y) s = .next (s.setV x (s.v x ^^^ s.v y)) := rfl

theorem exec_addR : exec (.addR x y) s =
    .next ((s.setV x (sumByte (s.v x) (s.v y))).setFlag (carry (s.v x) (s.v y))) := rfl

theorem exec_sub : exec (.sub x y) s =
    .next ((s.setV x (diffByte (s.v x) (s.v y))).setFlag (noBorrow (s.v x) (s.v y))) := rfl

theorem exec_subn : exec (.subn x y) s =
    .next ((s.setV x (diffByte (s.v y) (s.v x))).setFlag (noBorrow (s.v y) (s.v x))) := rfl

theorem exec_shr : exec (.shr x y) s = .next ((s.setV 15 (lowBit (s.v x))).setV x
    (shiftRight ((s.setV 15 (lowBit (s.v x))).v x))) := rfl

theorem exec_shl : exec (.shl x y) s = .next ((s.setV 15 (highBit (s.v x))).setV x
    (shiftLeft ((s.setV 15 (highBit (s.v x))).v x))) := rfl

theorem exec_rnd : exec (.rnd x nn) s = .next ((s.setV x (Config.rnd s.draws &&& nn)).countDraw) := rfl
theorem exec_ldIdx : exec (.ldIdx nnn) s = .next (s.setIdx (zextAddr nnn)) := rfl
theorem exec_addIdx : exec (.addIdx x) s = .next (s.setIdx (sumIdx s.idx (s.v x))) := rfl
theorem exec_ldF : exec (.ldF x) s = .next (s.setIdx (glyphAddr (s.v x))) := rfl
theorem exec_ldVxDt : exec (.ldVxDt x) s = .next (s.setV x s.dt) := rfl
theorem exec_ldDtVx : exec (.ldDtVx x) s = .next (s.setDt (s.v x)) := rfl
theorem exec_ldStVx : exec (.ldStVx x) s = .next (s.setSt (s.v x)) := rfl

variable {s x y nn nnn n}

theorem exec_ret_next {t : State} :
    exec .ret s = .next t ↔ ∃ h : s.sp.val ≠ 0, t = s.drop.setPc (s.top h) := by
  simp only [exec, execRet]
  split
  · next h => simp [h, eq_comm (a := t)]
  · next h => simp [h]

theorem exec_call_next {t : State} :
    exec (.call nnn) s = .next t ↔ ∃ h : s.sp.val < 16, t = (s.push s.pc h).setPc (zextAddr nnn) := by
  by_cases h : s.sp.val < 16
  · rw [show exec (.call nnn) s = .next ((s.push s.pc h).setPc (zextAddr nnn)) from dif_pos h]
    simp [h, eq_comm (a := t)]
  · rw [show exec (.call nnn) s = raise (.stackOverflow s.instrAddr) from dif_neg h]
    simp [h]

theorem exec_ldB_next {t : State} : exec (.ldB x) s = .next t ↔
    inBounds s.base 3 = true ∧ t = s.setMem (s.mem.writeBytes s.base (bcdDigits (s.v x))) :=
  storeBytes_next

theorem exec_stRegs_next {t : State} : exec (.stRegs x) s = .next t ↔
    inBounds s.base (x.val + 1) = true ∧ t = s.setMem (s.mem.writeBytes s.base (s.regsUpTo x)) := by
  rw [← regsUpTo_length s x]; exact storeBytes_next

theorem exec_ldRegs_next {t : State} : exec (.ldRegs x) s = .next t ↔
    inBounds s.base (x.val + 1) = true ∧
      t = s.setRegs (s.regs.load 0 (s.mem.readBytes s.base (x.val + 1))) := by
  simp only [exec, execLdRegs, loadBytes_next, Host.Outcome.next.injEq, eq_comm (a := t)]

theorem exec_drw_next {t : State} : exec (.drw x y n) s = .next t ↔
    inBounds s.base n.val = true ∧
      t = (s.setDisp (drawSprite (s.v x) (s.v y) (s.mem.readBytes s.base n.val) s.disp).1).setFlag
        (drawSprite (s.v x) (s.v y) (s.mem.readBytes s.base n.val) s.disp).2 := by
  simp only [exec, execDrw, loadBytes_next, Host.Outcome.next.injEq, eq_comm (a := t)]

theorem exec_skp_next {t : State} : exec (.skp x) s = .next t ↔
    ∃ h : (s.v x).toNat < 16, t = s.skipIf (s.key ⟨(s.v x).toNat, h⟩) := by
  simp only [exec, execSkp]
  by_cases h : (s.v x).toNat < 16
  · simp [withKey_of_lt s h, h, eq_comm (a := t)]
  · simp [withKey_of_ge s (Nat.le_of_not_lt h), h]

theorem exec_sknp_next {t : State} : exec (.sknp x) s = .next t ↔
    ∃ h : (s.v x).toNat < 16, t = s.skipIf (!s.key ⟨(s.v x).toNat, h⟩) := by
  simp only [exec, execSknp]
  by_cases h : (s.v x).toNat < 16
  · simp [withKey_of_lt s h, h, eq_comm (a := t)]
  · simp [withKey_of_ge s (Nat.le_of_not_lt h), h]

theorem exec_ldVxK_next {t : State} : exec (.ldVxK x) s = .next t ↔
    (∃ k, s.firstPressed = some k ∧ t = s.setV x (BitVec.ofNat 8 k.val)) ∨
      s.firstPressed = none ∧ t = s.rewind := by
  simp only [exec, execLdVxK]
  cases s.firstPressed <;> simp [eq_comm (a := t)]

/-! ## The cycle -/

theorem cycleWith_next {run : Instr → State → Out} {t : State} :
    cycleWith run s = .next t ↔
      s.fetchable = true ∧ ∃ i, decodeWord s.fetchWord = some i ∧ run i s.advance = .next t := by
  simp only [cycleWith, guardAccess_next, State.fetchable]
  cases decodeWord s.fetchWord <;> simp

/-- A cycle faults at the fetch, at the decoder, or as the instruction does (R147). -/
theorem cycleWith_fault {run : Instr → State → Out} {f : Fault} :
    cycleWith run s = .fault f ↔
      s.fetchable = false ∧ f = .memoryFault (max s.pc.toNat 4096) ∨
        s.fetchable = true ∧
          (decodeWord s.fetchWord = none ∧ f = .illegalInstruction s.fetchWord ∨
            ∃ i, decodeWord s.fetchWord = some i ∧ run i s.advance = .fault f) := by
  simp only [cycleWith, guardAccess_fault, State.fetchable]
  cases decodeWord s.fetchWord <;> simp [eq_comm (a := f)]

theorem cycleWith_of_decode {run : Instr → State → Out} {i : Instr} (hf : s.fetchable = true)
    (hi : decodeWord s.fetchWord = some i) : cycleWith run s = run i s.advance := by
  rw [cycleWith, guardAccess_of_inBounds hf, hi]

theorem step_next {t : State} :
    step s = .next t ↔ s.fetchable = true ∧ ∃ i, decodeWord s.fetchWord = some i ∧ exec i s.advance = .next t :=
  cycleWith_next

theorem execWithInput_of_ne {b : Byte} {i : Instr} (h : ∀ x nn, i ≠ .rnd x nn) : execWithInput b i s = exec i s := by
  cases i <;> simp_all [execWithInput]

/-! ## Memory placed for a fetch -/

theorem placeWord_fetchable (s : State) (w : Word) : (s.placeWord w).fetchable = true := by
  simp only [State.placeWord]
  split
  · next h => simpa [State.fetchable] using h
  · simp [State.fetchable, inBounds_iff]

end Sys2Proof.Machine
end

