-- ==== Sys2Proof/Laws/HostOps.lean ====
section
/-! SUPPORT. One lemma per operation of the boundary: everything it can do (spec/50_host_operations.md R130). -/

namespace Sys2Proof.Machine

variable (s : State)

@[simp] theorem perform_init : perform .init s = accept s.resetBlock := rfl
@[simp] theorem perform_reset : perform .reset s = accept s.resetBlock := rfl
@[simp] theorem perform_advanceTimers : perform .advanceTimers s = accept s.advanceTimers := rfl
@[simp] theorem perform_readDisplay : perform .readDisplay s = ⟨s, .ok, s.displayView⟩ := rfl

theorem perform_loadProgram_of_le {data : List Byte} (h : data.length ≤ 3584) :
    perform (.loadProgram data) s = accept (s.setMem (s.mem.writeBytes 0x200 data)) :=
  if_neg (Nat.not_lt.2 h)

theorem perform_loadProgram_of_gt {data : List Byte} (h : 3584 < data.length) :
    perform (.loadProgram data) s = reject s (.programTooLarge data.length) :=
  if_pos h

theorem perform_setKeyState_of_lt {k : Nat} (h : k < 16) (p : Bool) :
    perform (.setKeyState k p) s = accept (s.setKeys (s.keys.set k p h)) :=
  dif_pos h

theorem perform_setKeyState_of_ge {k : Nat} (h : 16 ≤ k) (p : Bool) :
    perform (.setKeyState k p) s = reject s (.invalidKeyIndex k) :=
  dif_neg (Nat.not_lt.2 h)

/-- A cycle leaves its own next state, or the state before it. -/
theorem perform_runCycle_state (b : Byte) :
    runCycle b s = .next (perform (.runCycle b) s).state ∨ (perform (.runCycle b) s).state = s := by
  simp only [perform]
  cases runCycle b s
  · exact .inl rfl
  · exact .inr rfl
  · exact .inr rfl

@[simp] theorem accept_state : (accept s).state = s := rfl
@[simp] theorem accept_answer : (accept s).answer = .ok := rfl
@[simp] theorem reject_state (f : Fault) : (reject s f).state = s := rfl
@[simp] theorem reject_answer (f : Fault) : (reject s f).answer = .error f := rfl

/-- Only `Cxnn` takes the supplied byte; it then completes. -/
theorem execWithInput_next {b : Byte} {i : Instr} {t : State} :
    execWithInput b i s = .next t ↔
      (∃ x nn, i = .rnd x nn ∧ t = (s.setV x (b &&& nn)).countDraw) ∨ (∀ x nn, i ≠ .rnd x nn) ∧ exec i s = .next t := by
  by_cases h : ∃ x nn, i = .rnd x nn
  · obtain ⟨x, nn, rfl⟩ := h
    simp [execWithInput, execRndWith, eq_comm (a := t)]
  · have h' : ∀ x nn, i ≠ .rnd x nn := fun x nn e => h ⟨x, nn, e⟩
    simp [execWithInput_of_ne h', h']

end Sys2Proof.Machine
end

