-- ==== Sys2Proof/Laws/PerInstr.lean ====
section
/-! SUPPORT. A law per instruction: its encoding is admitted by the opcode table's row with its label. -/

namespace Sys2Proof.Laws.EncodingRow

/-- The row of the opcode table with the instruction's label admits the instruction's word
(spec/30_encoding.md R55). -/
def Statement (i : Instr) : Prop := ∃ r, i.row = some r ∧ r.admits (encode i) = true

theorem nop : Statement (.nop) :=
  ⟨_, rfl, by decide⟩

theorem cls : Statement (.cls) :=
  ⟨_, rfl, by decide⟩

theorem ret : Statement (.ret) :=
  ⟨_, rfl, by decide⟩

theorem jp (nnn : Addr) : Statement (.jp nnn) :=
  ⟨_, rfl, by
    rw [encode]
    exact (admits_F000 _ _ (op := 1) (by decide)).trans (decide_eq_true (fieldOp_packNNN (by decide) ..))⟩

theorem call (nnn : Addr) : Statement (.call nnn) :=
  ⟨_, rfl, by
    rw [encode]
    exact (admits_F000 _ _ (op := 2) (by decide)).trans (decide_eq_true (fieldOp_packNNN (by decide) ..))⟩

theorem seI (x : Reg) (nn : Byte) : Statement (.seI x nn) :=
  ⟨_, rfl, by
    rw [encode]
    exact (admits_F000 _ _ (op := 3) (by decide)).trans (decide_eq_true (fieldOp_packXNN (by decide) ..))⟩

theorem sneI (x : Reg) (nn : Byte) : Statement (.sneI x nn) :=
  ⟨_, rfl, by
    rw [encode]
    exact (admits_F000 _ _ (op := 4) (by decide)).trans (decide_eq_true (fieldOp_packXNN (by decide) ..))⟩

theorem seR (x y : Reg) : Statement (.seR x y) :=
  ⟨_, rfl, by
    rw [encode]
    exact (admits_F00F _ _ (op := 5) (n := 0) (by decide) (by decide)).trans
      (decide_eq_true ⟨fieldOp_packXYN (by decide) .., slice_n_packXYN (by decide) ..⟩)⟩

theorem ldI (x : Reg) (nn : Byte) : Statement (.ldI x nn) :=
  ⟨_, rfl, by
    rw [encode]
    exact (admits_F000 _ _ (op := 6) (by decide)).trans (decide_eq_true (fieldOp_packXNN (by decide) ..))⟩

theorem addI (x : Reg) (nn : Byte) : Statement (.addI x nn) :=
  ⟨_, rfl, by
    rw [encode]
    exact (admits_F000 _ _ (op := 7) (by decide)).trans (decide_eq_true (fieldOp_packXNN (by decide) ..))⟩

theorem ldR (x y : Reg) : Statement (.ldR x y) :=
  ⟨_, rfl, by
    rw [encode]
    exact (admits_F00F _ _ (op := 8) (n := 0) (by decide) (by decide)).trans
      (decide_eq_true ⟨fieldOp_packXYN (by decide) .., slice_n_packXYN (by decide) ..⟩)⟩

theorem orR (x y : Reg) : Statement (.orR x y) :=
  ⟨_, rfl, by
    rw [encode]
    exact (admits_F00F _ _ (op := 8) (n := 1) (by decide) (by decide)).trans
      (decide_eq_true ⟨fieldOp_packXYN (by decide) .., slice_n_packXYN (by decide) ..⟩)⟩

theorem andR (x y : Reg) : Statement (.andR x y) :=
  ⟨_, rfl, by
    rw [encode]
    exact (admits_F00F _ _ (op := 8) (n := 2) (by decide) (by decide)).trans
      (decide_eq_true ⟨fieldOp_packXYN (by decide) .., slice_n_packXYN (by decide) ..⟩)⟩

theorem xorR (x y : Reg) : Statement (.xorR x y) :=
  ⟨_, rfl, by
    rw [encode]
    exact (admits_F00F _ _ (op := 8) (n := 3) (by decide) (by decide)).trans
      (decide_eq_true ⟨fieldOp_packXYN (by decide) .., slice_n_packXYN (by decide) ..⟩)⟩

theorem addR (x y : Reg) : Statement (.addR x y) :=
  ⟨_, rfl, by
    rw [encode]
    exact (admits_F00F _ _ (op := 8) (n := 4) (by decide) (by decide)).trans
      (decide_eq_true ⟨fieldOp_packXYN (by decide) .., slice_n_packXYN (by decide) ..⟩)⟩

theorem sub (x y : Reg) : Statement (.sub x y) :=
  ⟨_, rfl, by
    rw [encode]
    exact (admits_F00F _ _ (op := 8) (n := 5) (by decide) (by decide)).trans
      (decide_eq_true ⟨fieldOp_packXYN (by decide) .., slice_n_packXYN (by decide) ..⟩)⟩

theorem shr (x y : Reg) : Statement (.shr x y) :=
  ⟨_, rfl, by
    rw [encode]
    exact (admits_F00F _ _ (op := 8) (n := 6) (by decide) (by decide)).trans
      (decide_eq_true ⟨fieldOp_packXYN (by decide) .., slice_n_packXYN (by decide) ..⟩)⟩

theorem subn (x y : Reg) : Statement (.subn x y) :=
  ⟨_, rfl, by
    rw [encode]
    exact (admits_F00F _ _ (op := 8) (n := 7) (by decide) (by decide)).trans
      (decide_eq_true ⟨fieldOp_packXYN (by decide) .., slice_n_packXYN (by decide) ..⟩)⟩

theorem shl (x y : Reg) : Statement (.shl x y) :=
  ⟨_, rfl, by
    rw [encode]
    exact (admits_F00F _ _ (op := 8) (n := 14) (by decide) (by decide)).trans
      (decide_eq_true ⟨fieldOp_packXYN (by decide) .., slice_n_packXYN (by decide) ..⟩)⟩

theorem sneR (x y : Reg) : Statement (.sneR x y) :=
  ⟨_, rfl, by
    rw [encode]
    exact (admits_F00F _ _ (op := 9) (n := 0) (by decide) (by decide)).trans
      (decide_eq_true ⟨fieldOp_packXYN (by decide) .., slice_n_packXYN (by decide) ..⟩)⟩

theorem ldIdx (nnn : Addr) : Statement (.ldIdx nnn) :=
  ⟨_, rfl, by
    rw [encode]
    exact (admits_F000 _ _ (op := 10) (by decide)).trans (decide_eq_true (fieldOp_packNNN (by decide) ..))⟩

theorem jpV0 (nnn : Addr) : Statement (.jpV0 nnn) :=
  ⟨_, rfl, by
    rw [encode]
    exact (admits_F000 _ _ (op := 11) (by decide)).trans (decide_eq_true (fieldOp_packNNN (by decide) ..))⟩

theorem rnd (x : Reg) (nn : Byte) : Statement (.rnd x nn) :=
  ⟨_, rfl, by
    rw [encode]
    exact (admits_F000 _ _ (op := 12) (by decide)).trans (decide_eq_true (fieldOp_packXNN (by decide) ..))⟩

theorem drw (x y : Reg) (n : Nibble) : Statement (.drw x y n) :=
  ⟨_, rfl, by
    rw [encode]
    exact (admits_F000 _ _ (op := 13) (by decide)).trans (decide_eq_true (fieldOp_packXYN (by decide) ..))⟩

theorem skp (x : Reg) : Statement (.skp x) :=
  ⟨_, rfl, by
    rw [encode]
    exact (admits_F0FF _ _ (op := 14) (nn := 158) (by decide) (by decide)).trans
      (decide_eq_true ⟨fieldOp_packXNN (by decide) .., slice_nn_packXNN (by decide) ..⟩)⟩

theorem sknp (x : Reg) : Statement (.sknp x) :=
  ⟨_, rfl, by
    rw [encode]
    exact (admits_F0FF _ _ (op := 14) (nn := 161) (by decide) (by decide)).trans
      (decide_eq_true ⟨fieldOp_packXNN (by decide) .., slice_nn_packXNN (by decide) ..⟩)⟩

theorem ldVxDt (x : Reg) : Statement (.ldVxDt x) :=
  ⟨_, rfl, by
    rw [encode]
    exact (admits_F0FF _ _ (op := 15) (nn := 7) (by decide) (by decide)).trans
      (decide_eq_true ⟨fieldOp_packXNN (by decide) .., slice_nn_packXNN (by decide) ..⟩)⟩

theorem ldVxK (x : Reg) : Statement (.ldVxK x) :=
  ⟨_, rfl, by
    rw [encode]
    exact (admits_F0FF _ _ (op := 15) (nn := 10) (by decide) (by decide)).trans
      (decide_eq_true ⟨fieldOp_packXNN (by decide) .., slice_nn_packXNN (by decide) ..⟩)⟩

theorem ldDtVx (x : Reg) : Statement (.ldDtVx x) :=
  ⟨_, rfl, by
    rw [encode]
    exact (admits_F0FF _ _ (op := 15) (nn := 21) (by decide) (by decide)).trans
      (decide_eq_true ⟨fieldOp_packXNN (by decide) .., slice_nn_packXNN (by decide) ..⟩)⟩

theorem ldStVx (x : Reg) : Statement (.ldStVx x) :=
  ⟨_, rfl, by
    rw [encode]
    exact (admits_F0FF _ _ (op := 15) (nn := 24) (by decide) (by decide)).trans
      (decide_eq_true ⟨fieldOp_packXNN (by decide) .., slice_nn_packXNN (by decide) ..⟩)⟩

theorem addIdx (x : Reg) : Statement (.addIdx x) :=
  ⟨_, rfl, by
    rw [encode]
    exact (admits_F0FF _ _ (op := 15) (nn := 30) (by decide) (by decide)).trans
      (decide_eq_true ⟨fieldOp_packXNN (by decide) .., slice_nn_packXNN (by decide) ..⟩)⟩

theorem ldF (x : Reg) : Statement (.ldF x) :=
  ⟨_, rfl, by
    rw [encode]
    exact (admits_F0FF _ _ (op := 15) (nn := 41) (by decide) (by decide)).trans
      (decide_eq_true ⟨fieldOp_packXNN (by decide) .., slice_nn_packXNN (by decide) ..⟩)⟩

theorem ldB (x : Reg) : Statement (.ldB x) :=
  ⟨_, rfl, by
    rw [encode]
    exact (admits_F0FF _ _ (op := 15) (nn := 51) (by decide) (by decide)).trans
      (decide_eq_true ⟨fieldOp_packXNN (by decide) .., slice_nn_packXNN (by decide) ..⟩)⟩

theorem stRegs (x : Reg) : Statement (.stRegs x) :=
  ⟨_, rfl, by
    rw [encode]
    exact (admits_F0FF _ _ (op := 15) (nn := 85) (by decide) (by decide)).trans
      (decide_eq_true ⟨fieldOp_packXNN (by decide) .., slice_nn_packXNN (by decide) ..⟩)⟩

theorem ldRegs (x : Reg) : Statement (.ldRegs x) :=
  ⟨_, rfl, by
    rw [encode]
    exact (admits_F0FF _ _ (op := 15) (nn := 101) (by decide) (by decide)).trans
      (decide_eq_true ⟨fieldOp_packXNN (by decide) .., slice_nn_packXNN (by decide) ..⟩)⟩

end Sys2Proof.Laws.EncodingRow
end

