-- ==== Sys2Proof/Tests/Slice0.lean ====
section
/-! SUPPORT. Tests on fixed values and witnesses of the statements' hypotheses. The expected results are those of
spec/95_test_vectors.md (T.. Part B, H.. Part C, Part D); each test names its vector. `test_` is a check of one step
or of the decoder, `witness_` shows that the hypotheses of the statement it is named after can be met. -/

open Sys2Proof Sys2Proof.Machine

namespace Sys2Proof.Tests

/-! ## Helpers -/

/-- The state of a cycle that ended `Ok`. -/
def good : Out → Option State
  | .next t => some t
  | _ => none

/-- The error of a cycle that ended with one. -/
def bad : Out → Option Fault
  | .fault f => some f
  | _ => none

/-- One cycle with `rnd = 0` and the word at the program counter, as Part B of the vectors has it. -/
def cycleOf (w : Word) (s : State) : Out := runCycle 0x00 (s.placeWord w)

/-- Bytes stored from an address upward. -/
def withBytes (s : State) (a : Nat) (bs : List Byte) : State := s.setMem (s.mem.writeBytes a bs)

/-- One key pressed. -/
def withKeyDown (s : State) (k : Fin 16) : State := s.setKeys (s.keys.set k.val true)

/-- One pixel lit. -/
def withPixel (s : State) (r : Fin 32) (c : Fin 64) : State :=
  s.setDisp (s.disp.set r.val (s.disp[r.val].set c.val true))

/-- The stack pointer and one entry given. -/
def withStack (s : State) (depth : Fin 17) (k : Fin 16) (w : Word) : State :=
  { s with sp := depth, stack := s.stack.set k.val w }

/-- The lit pixels, as row and column. -/
def lit (s : State) : List (Nat × Nat) :=
  s.disp.toList.zipIdx.flatMap fun row =>
    (row.1.toList.zipIdx.filter (·.1)).map fun pixel => (row.2, pixel.2)

/-- The state right after reset. -/
abbrev start : State := State.reset

/-- A word at the last address that can be fetched from. -/
def atTop (w : Word) : State := (start.setPc 0xFFE).placeWord w

/-! ## The opcode table and the decoder -/

/-- One word of each group of R56 that the table refuses (Part D). -/
theorem test_wellFormed_refuses_op0 : wellFormedWord 0x0E00 = false ∧ wellFormedWord 0x00EF = false := by decide
theorem test_wellFormed_refuses_op5 : wellFormedWord 0x5AB1 = false ∧ wellFormedWord 0x500F = false := by decide
theorem test_wellFormed_refuses_op8 : wellFormedWord 0x8AB8 = false ∧ wellFormedWord 0x8ABF = false := by decide
theorem test_wellFormed_refuses_op9 : wellFormedWord 0x9AB1 = false := by decide
theorem test_wellFormed_refuses_opE : wellFormedWord 0xE09F = false ∧ wellFormedWord 0xE000 = false := by decide
theorem test_wellFormed_refuses_opF : wellFormedWord 0xF03A = false ∧ wellFormedWord 0xFFFF = false := by decide
theorem test_wellFormed_accepts : wellFormedWord 0x0000 = true ∧ wellFormedWord 0xDFFF = true := by decide

/-- Part D, written out from the patterns: flow. -/
theorem test_decode_flow :
    [0x0000, 0x00EE, 0x1000, 0xBFFF, 0x2FFF].map decodeWord =
      [some .nop, some .ret, some (.jp 0x000), some (.jpV0 0xFFF), some (.call 0xFFF)] := by decide

/-- Part D: skips. -/
theorem test_decode_skips :
    [0x3FFF, 0x4000, 0x5FF0, 0x9AB0].map decodeWord =
      [some (.seI 15 0xFF), some (.sneI 0 0x00), some (.seR 15 15), some (.sneR 10 11)] := by decide

/-- Part D: loads, additions, random byte. -/
theorem test_decode_loads :
    [0x6ABC, 0x7ABC, 0x8AB0, 0xC0FF].map decodeWord =
      [some (.ldI 10 0xBC), some (.addI 10 0xBC), some (.ldR 10 11), some (.rnd 0 0xFF)] := by decide

/-- Part D: the rows with `op = 8`. -/
theorem test_decode_alu :
    [0x8AB1, 0x8AB2, 0x8AB3, 0x8AB4, 0x8AB5, 0x8AB6, 0x8AB7, 0x8ABE].map decodeWord =
      [some (.orR 10 11), some (.andR 10 11), some (.xorR 10 11), some (.addR 10 11), some (.sub 10 11),
        some (.shr 10 11), some (.subn 10 11), some (.shl 10 11)] := by decide

/-- Part D: index register and memory. -/
theorem test_decode_index :
    [0xA000, 0xF11E, 0xF229, 0xF333, 0xF455, 0xFF65].map decodeWord =
      [some (.ldIdx 0x000), some (.addIdx 1), some (.ldF 2), some (.ldB 3), some (.stRegs 4), some (.ldRegs 15)] := by
  decide

/-- Part D: display. -/
theorem test_decode_display :
    [0x00E0, 0xD5A3].map decodeWord = [some .cls, some (.drw 5 10 3)] := by decide

/-- Part D: keys and timers. -/
theorem test_decode_keys :
    [0xEF9E, 0xE0A1, 0xF107, 0xF20A, 0xF315, 0xF418].map decodeWord =
      [some (.skp 15), some (.sknp 0), some (.ldVxDt 1), some (.ldVxK 2), some (.ldDtVx 3), some (.ldStVx 4)] := by
  decide

/-- Part D: the rest of the words it calls illegal. -/
theorem test_decode_illegal :
    ([0x0001, 0x00FE, 0x0200, 0x8AB9, 0x8ABA, 0x8ABD, 0xE19D, 0xE1A2, 0xF000, 0xF001, 0xF075, 0xF085, 0xF002, 0xF0FB,
      0xF11F] : List Word).all (fun w => decodeWord w == none) = true := by decide

/-- Part D: the fields of 0xD5A3. -/
theorem test_fields : (fieldOp 0xD5A3, fieldX 0xD5A3, fieldY 0xD5A3, fieldN 0xD5A3, fieldNN 0xD5A3, fieldNNN 0xD5A3) =
    (0xD, 5, 0xA, 3, 0xA3, 0x5A3) := by decide

/-- Part D: the fetch of 0xD5A3, high byte first; and the decoder on bytes. -/
theorem test_fetch_high_byte_first : (withBytes start 0x200 [0xD5, 0xA3]).fetchWord = 0xD5A3 := by decide
theorem test_decode_bytes : decode [0xD5, 0xA3, 0x12] = .instr (.drw 5 10 3) [0x12] := by decide
theorem test_decode_truncated : decode [0xD5] = .truncated ∧ decode [] = .truncated := by decide
theorem test_encodeBytes : encodeBytes (.drw 5 10 3) = [0xD5, 0xA3] := by decide
theorem test_decodeTableWord : decodeTableWord 16 0x2FFF = some (.call 0xFFF) ∧ decodeTableWord 16 0x8AB8 = none := by
  decide

/-- R17: the glyph of A in the font (P6). -/
theorem test_font_glyph : start.mem.readBytes 0x32 5 = [0xF0, 0x90, 0xF0, 0x90, 0x90] := by decide

/-! ## Flow -/

/-- T19. -/
theorem test_nop_at_top : (good (cycleOf 0x0000 (start.setPc 0xFFE))).map (·.pc) = some 0x1000 := by decide

/-- T2. -/
theorem test_jp : (good (cycleOf 0x1ABC start)).map (·.pc) = some 0xABC := by decide

/-- T7. -/
theorem test_jpV0_not_reduced : (good (cycleOf 0xBFFF (start.setV 0 0xFF))).map (·.pc) = some 0x10FE := by decide

/-- T10. -/
theorem test_call_last_slot : (good (cycleOf 0x2300 (withStack start 15 0 0))).map
    (fun t => (t.pc, t.sp, t.entry 15)) = some (0x300, 16, 0x202) := by decide

/-- T11. -/
theorem test_call_overflow : bad (cycleOf 0x2300 (withStack start 16 0 0)) = some (.stackOverflow 0x200) := by decide

/-- T14. -/
theorem test_ret : (good (cycleOf 0x00EE (withStack (withStack start 2 0 0x206) 2 1 0x1000))).map
    (fun t => (t.pc, t.sp, t.entry 1)) = some (0x1000, 1, 0x1000) := by decide

/-- T13. -/
theorem test_ret_underflow : bad (cycleOf 0x00EE start) = some (.stackUnderflow 0x200) := by decide

/-- T8. -/
theorem test_fetch_outside : bad (runCycle 0 (start.setPc 0x10FE)) = some (.memoryFault 0x10FE) := by decide

/-- T16. -/
theorem test_illegal : bad (cycleOf 0x0123 start) = some (.illegalInstruction 0x0123) := by decide

/-! ## Skips -/

/-- T33, T21. -/
theorem test_seI : (good (cycleOf 0x3000 (start.setPc 0xFFE))).map (·.pc) = some 0x1002 ∧
    (good (cycleOf 0x3A42 (start.setV 10 0x43))).map (·.pc) = some 0x202 := by decide

/-- T23, T22. -/
theorem test_sneI : (good (cycleOf 0x4A42 (start.setV 10 0x43))).map (·.pc) = some 0x204 ∧
    (good (cycleOf 0x4A42 (start.setV 10 0x42))).map (·.pc) = some 0x202 := by decide

/-- T24, T25. -/
theorem test_seR : (good (cycleOf 0x5120 ((start.setV 1 7).setV 2 7))).map (·.pc) = some 0x204 ∧
    (good (cycleOf 0x5120 ((start.setV 1 7).setV 2 8))).map (·.pc) = some 0x202 := by decide

/-- T27, T29. -/
theorem test_sneR : (good (cycleOf 0x9120 ((start.setV 1 7).setV 2 8))).map (·.pc) = some 0x204 ∧
    (good (cycleOf 0x9330 (start.setV 3 9))).map (·.pc) = some 0x202 := by decide

/-! ## Arithmetic and logic -/

/-- T40. -/
theorem test_ldI : (good (cycleOf 0x63AB start)).map (fun t => (t.v 3, t.pc)) = some (0xAB, 0x202) := by decide

/-- T42. -/
theorem test_addI_no_flag : (good (cycleOf 0x7301 ((start.setV 3 0xFF).setV 15 0x55))).map
    (fun t => (t.v 3, t.v 15)) = some (0x00, 0x55) := by decide

/-- T45. -/
theorem test_ldR : (good (cycleOf 0x8120 ((start.setV 1 0x11).setV 2 0x22))).map
    (fun t => (t.v 1, t.v 2)) = some (0x22, 0x22) := by decide

/-- T47. -/
theorem test_or : (good (cycleOf 0x8121 (((start.setV 1 0xF0).setV 2 0x0F).setV 15 1))).map
    (fun t => (t.v 1, t.v 15)) = some (0xFF, 1) := by decide

/-- T48. -/
theorem test_and : (good (cycleOf 0x8122 (((start.setV 1 0xF3).setV 2 0x3C).setV 15 1))).map
    (fun t => (t.v 1, t.v 15)) = some (0x30, 1) := by decide

/-- T49. -/
theorem test_xor : (good (cycleOf 0x8123 (((start.setV 1 0xFF).setV 2 0x0F).setV 15 1))).map
    (fun t => (t.v 1, t.v 15)) = some (0xF0, 1) := by decide

/-- T52. -/
theorem test_addR_clears_flag : (good (cycleOf 0x8124 (((start.setV 1 0x7F).setV 2 0x80).setV 15 1))).map
    (fun t => (t.v 1, t.v 15)) = some (0xFF, 0) := by decide

/-- T54. -/
theorem test_addR_flag_wins : (good (cycleOf 0x8F14 ((start.setV 15 0xF0).setV 1 0x20))).map (·.v 15) = some 1 := by
  decide

/-- T59. -/
theorem test_sub_borrow : (good (cycleOf 0x8125 (((start.setV 1 3).setV 2 5).setV 15 1))).map
    (fun t => (t.v 1, t.v 15)) = some (0xFE, 0) := by decide

/-- T63. -/
theorem test_sub_from_flag : (good (cycleOf 0x81F5 ((start.setV 1 3).setV 15 5))).map
    (fun t => (t.v 1, t.v 15)) = some (0xFE, 0) := by decide

/-- T65. -/
theorem test_subn : (good (cycleOf 0x8127 ((start.setV 1 3).setV 2 5))).map
    (fun t => (t.v 1, t.v 15)) = some (2, 1) := by decide

/-- T67. -/
theorem test_subn_flag_wins : (good (cycleOf 0x8F17 ((start.setV 15 5).setV 1 3))).map (·.v 15) = some 0 := by decide

/-- T69. -/
theorem test_shr_ignores_y : (good (cycleOf 0x81A6 ((start.setV 1 5).setV 10 0xFF))).map
    (fun t => (t.v 1, t.v 15)) = some (2, 1) := by decide

/-- T72. -/
theorem test_shr_of_flag : (good (cycleOf 0x8F06 (start.setV 15 0xFF))).map (·.v 15) = some 0 := by decide

/-- T74. -/
theorem test_shl : (good (cycleOf 0x810E (start.setV 1 0x81))).map (fun t => (t.v 1, t.v 15)) = some (2, 1) := by decide

/-- T77. -/
theorem test_shl_of_flag : (good (cycleOf 0x8F0E (start.setV 15 0x80))).map (·.v 15) = some 2 := by decide

/-- T80. -/
theorem test_rnd : (good (runCycle 0xA7 (start.placeWord 0xC30F))).map (fun t => (t.v 3, t.pc)) = some (7, 0x202) := by
  decide

/-! ## Index register and memory -/

/-- T91. -/
theorem test_ldIdx : (good (cycleOf 0xAFFF start)).map (·.idx) = some 0xFFF := by decide

/-- T94, T93. -/
theorem test_addIdx : (good (cycleOf 0xF31E ((start.setIdx 0xFFFF).setV 3 2))).map (·.idx) = some 1 ∧
    (good (cycleOf 0xF31E (((start.setIdx 0xFFF).setV 3 1).setV 15 0x55))).map (fun t => (t.idx, t.v 15)) =
      some (0x1000, 0x55) := by decide

/-- T97. -/
theorem test_ldF : (good (cycleOf 0xF329 (start.setV 3 0x1A))).map (·.idx) = some 0x032 := by decide

/-- T105. -/
theorem test_ldB_top : (good (cycleOf 0xF333 ((start.setIdx 0xFFD).setV 3 0xC7))).map (·.mem.readBytes 0xFFC 4) =
    some [0, 1, 9, 9] := by decide

/-- T106. -/
theorem test_ldB_outside : bad (cycleOf 0xF333 ((start.setIdx 0xFFE).setV 3 0xC7)) = some (.memoryFault 0x1000) := by
  decide

/-- T109. -/
theorem test_stRegs : (good (cycleOf 0xF255
    ((((start.setIdx 0x300).setV 0 0x11).setV 1 0x22).setV 2 0x33 |>.setV 3 0x44))).map
      (fun t => (t.mem.readBytes 0x2FF 5, t.idx)) = some ([0, 0x11, 0x22, 0x33, 0], 0x300) := by decide

/-- T111. -/
theorem test_stRegs_outside : bad (cycleOf 0xFF55 ((start.setIdx 0xFF1).setV 0 1)) = some (.memoryFault 0x1000) := by
  decide

/-- T115. -/
theorem test_ldRegs : (good (cycleOf 0xF265 ((withBytes start 0x300 [0x9A, 0xBC, 0xDE, 0xF0]).setIdx 0x300))).map
    (fun t => (t.v 0, t.v 1, t.v 2, t.v 3, t.idx)) = some (0x9A, 0xBC, 0xDE, 0, 0x300) := by decide

/-- T120. -/
theorem test_ldRegs_outside : bad (cycleOf 0xF065 (start.setIdx 0x1000)) = some (.memoryFault 0x1000) := by decide

/-! ## Display -/

/-- T130. -/
theorem test_cls : (good (cycleOf 0x00E0 ((withPixel (withPixel start 0 0) 31 63).setV 15 1))).map
    (fun t => (lit t, t.v 15)) = some ([], 1) := by decide

/-- T133. -/
theorem test_drw_wraps_columns : (good (cycleOf 0xD011 (((withBytes start 0x300 [0xFF]).setIdx 0x300).setV 0 60))).map
    lit = some [(0, 0), (0, 1), (0, 2), (0, 3), (0, 60), (0, 61), (0, 62), (0, 63)] := by decide

/-- T136. -/
theorem test_drw_collision : (good (cycleOf 0xD011 ((withPixel (withBytes start 0x300 [0xC0]) 0 1).setIdx 0x300))).map
    (fun t => (lit t, t.v 15)) = some ([(0, 0)], 1) := by decide

/-- T138: no rows, no access; and T140: one row outside, nothing drawn. -/
theorem test_drw_bounds :
    (good (cycleOf 0xD010 ((start.setIdx 0xFFFF).setV 15 1))).map (·.v 15) = some 0 ∧
    bad (cycleOf 0xD012 (start.setIdx 0xFFF)) = some (.memoryFault 0x1000) := by decide

/-- T141. -/
theorem test_drw_origin_in_flag_register :
    (good (cycleOf 0xDFF1 (((withBytes start 0x300 [0x80]).setIdx 0x300).setV 15 35))).map
      (fun t => (lit t, t.v 15)) = some ([(3, 35)], 0) := by decide

/-- T142. -/
theorem test_drw_glyph : (good (cycleOf 0xD015 (start.setIdx 0x005))).map lit =
    some [(0, 2), (1, 1), (1, 2), (2, 2), (3, 2), (4, 1), (4, 2), (4, 3)] := by decide

/-! ## Keys and timers -/

/-- T156, T154. -/
theorem test_skp : (good (cycleOf 0xE39E ((withKeyDown start 15).setV 3 15))).map (·.pc) = some 0x204 ∧
    bad (cycleOf 0xE39E (start.setV 3 0x10)) = some (.invalidKeyIndex 0x10) := by decide

/-- T152, T153. -/
theorem test_sknp : (good (cycleOf 0xE3A1 ((withKeyDown start 7).setV 3 7))).map (·.pc) = some 0x202 ∧
    (good (cycleOf 0xE3A1 (start.setV 3 7))).map (·.pc) = some 0x204 := by decide

/-- T159. -/
theorem test_ldVxK_waits : good (cycleOf 0xF30A start) = some (start.placeWord 0xF30A) := by decide

/-- T160. -/
theorem test_ldVxK_least : (good (cycleOf 0xF30A
    ((withKeyDown (withKeyDown (withKeyDown start 12) 9) 4).setV 3 0xEE))).map (fun t => (t.v 3, t.pc)) =
      some (4, 0x202) := by decide

/-- T163. -/
theorem test_ldVxDt : (good (cycleOf 0xF307 (start.setDt 0x2A))).map (fun t => (t.v 3, t.dt)) = some (0x2A, 0x2A) := by
  decide

/-- T164. -/
theorem test_ldDtVx : (good (cycleOf 0xF315 (start.setV 3 0x3C))).map (fun t => (t.dt, t.st)) = some (0x3C, 0) := by
  decide

/-- T165. -/
theorem test_ldStVx : (good (cycleOf 0xF318 (start.setV 3 2))).map (fun t => (t.st, t.dt, t.soundActive)) =
    some (2, 0, true) := by decide

/-! ## Host operations -/

/-- H2, for whatever 3585 bytes. -/
theorem test_load_too_large (data : List Byte) (h : data.length = 3585) :
    perform (.loadProgram data) (withBytes start 0x200 [0x55]) =
      ⟨withBytes start 0x200 [0x55], .error (.programTooLarge 3585), []⟩ := by
  simp [perform, State.loadProgram, reject, h]

/-- P1's first bytes, at the load address. -/
theorem test_load : (perform (.loadProgram [0x60, 0x00, 0x61, 0x05]) start).state.mem.readBytes 0x1FF 6 =
    [0, 0x60, 0x00, 0x61, 0x05, 0] := by decide

/-- H4, H5. -/
theorem test_set_key : (perform (.setKeyState 15 true) start).state = withKeyDown start 15 ∧
    perform (.setKeyState 16 true) start = ⟨start, .error (.invalidKeyIndex 16), []⟩ := by decide

/-- H6. -/
theorem test_tick : (let t := (perform .advanceTimers ((start.setDt 2).setSt 1)).state; (t.dt, t.st, t.soundActive)) =
    (1, 0, false) := by decide

/-- H8. -/
theorem test_tick_at_zero : (perform .advanceTimers start).state = start := by decide

/-- R18: pixel (1,2) is element 1 * 64 + 2. -/
theorem test_read_display : (perform .readDisplay (withPixel start 1 2)).view[66]? = some true := by decide

/-- H9. -/
theorem test_reset : (perform .reset (((withPixel start 3 3).setV 7 9).setPc 0x300)).state = start := by decide

/-- R140, D4: codes and information. -/
theorem test_codes : (Fault.memoryFault 0x1000).code = 6 ∧ (Fault.illegalInstruction 0x5121).info = 0x5121 := by decide

/-! ## Witnesses: encoding and the cycle -/

theorem witness_LegalWordIsItsInstructionsEncoding : decodeWord 0x8AB6 = some (.shr 10 11) := by decide

/-- The two clauses with hypotheses, at the last address that can be fetched from. -/
theorem witness_IllegalWordsAreExactlyThoseListed :
    (atTop 0x5121).pc.toNat ≤ 0xFFE ∧ decodeWord (atTop 0x5121).fetchWord = none ∧
      step (atTop 0x5121) = .fault (.illegalInstruction 0x5121) := by
  refine ⟨by decide, by decide, rfl⟩

theorem witness_FetchReadsTheWordBigEndian : ∃ s : State, s.byte s.pc.toNat = 0x12 ∧ s.byte (s.pc.toNat + 1) = 0x34 :=
  ⟨start.placeWord 0x1234, by decide⟩

/-- Its clause on images, at both ends of the longest one. -/
theorem witness_FetchReadsTheWordBigEndian_image :
    ∃ data : List Byte, start.mem.wf ∧ data.length ≤ 3584 ∧
      (0 + 1 < data.length ∧ start.pc.toNat = 0x200 + 0) ∧
      3582 + 1 < data.length ∧ (start.setPc 0xFFE).mem.wf ∧ (start.setPc 0xFFE).pc.toNat = 0x200 + 3582 := by
  refine ⟨List.replicate 3584 0xAB, ⟨by decide, by decide⟩, ?_, ⟨?_, by decide⟩, ?_, ⟨by decide, by decide⟩, by decide⟩ <;>
    rw [List.length_replicate] <;> decide

theorem witness_StepRunsTheDecodedInstruction :
    (atTop 0xD5A3).pc.toNat ≤ 0xFFE ∧ decodeWord (atTop 0xD5A3).fetchWord = some (.drw 5 10 3) := by decide

theorem witness_FetchOutsideMemoryFaults : 0xFFF ≤ (start.setPc 0xFFF).pc.toNat ∧ 0xFFF ≤ (start.setPc 0x10FE).pc.toNat := by
  decide

/-- With `pc` at its highest fetchable value, and with `pc` above it. -/
theorem witness_PlacedWordIsTheNextToRun :
    (start.setPc 0xFFE).mem.wf ∧ decodeTableWord 16 0x1ABC = some (.jp 0xABC) ∧ (start.setPc 0xFFE).pc.toNat ≤ 0xFFE ∧
      (start.setPc 0xFFF).mem.wf ∧ ¬(start.setPc 0xFFF).pc.toNat ≤ 0xFFE := by
  refine ⟨⟨by decide, by decide⟩, by decide, by decide, ⟨by decide, by decide⟩, by decide⟩

theorem witness_FailedCycleFailsAgain : ∃ b c s f, b ≠ c ∧ runCycle b s = .fault f ∧ f = .stackUnderflow 0x200 :=
  ⟨0x00, 0x01, start.placeWord 0x00EE, _, by decide, rfl, rfl⟩

/-- Each error an instruction raises, as an outcome of `exec`. -/
theorem witness_OnlyTheNamedInstructionsRaise :
    exec .ret start = .fault (.stackUnderflow 0x1FE) ∧
    exec (.call 0x300) (withStack start 16 0 0) = .fault (.stackOverflow 0x1FE) ∧
    exec (.drw 0 1 2) (start.setIdx 0xFFF) = .fault (.memoryFault 0x1000) ∧
    exec (.ldB 3) (start.setIdx 0xFFE) = .fault (.memoryFault 0x1000) ∧
    exec (.stRegs 15) (start.setIdx 0xFF1) = .fault (.memoryFault 0x1000) ∧
    exec (.ldRegs 1) (start.setIdx 0xFFF) = .fault (.memoryFault 0x1000) ∧
    exec (.skp 3) (start.setV 3 0x10) = .fault (.invalidKeyIndex 0x10) :=
  ⟨rfl, rfl, rfl, rfl, rfl, rfl, rfl⟩

/-! ## Witnesses: invariants -/

theorem witness_StepKeepsTheInvariant : ∃ s t : State, s.Inv ∧ step s = .next t ∧ s ≠ t :=
  ⟨start, _, ⟨⟨by decide, by decide⟩, by decide, by decide⟩, rfl, by decide⟩

/-- The invariant admits a full stack, the highest `pc` a jump reaches, and a memory that lists something. -/
theorem witness_Inv_at_its_bounds :
    State.Inv (withStack (withBytes (start.setPc 0x10FE) 0xFFF [0x77]) 16 15 0x1000) :=
  ⟨⟨by decide, by decide⟩, by decide, by decide⟩

theorem witness_EveryOperationKeepsTheInvariant :
    State.Inv (withStack (withBytes (start.setPc 0x10FE) 0xFFF [0x77]) 16 15 0x1000) ∧
      (perform (.setKeyState 3 true) start).state ≠ start :=
  ⟨witness_Inv_at_its_bounds, by decide⟩

theorem witness_ReachableStatesMeetTheInvariant : Reachable (perform (.setKeyState 3 true) State.reset).state :=
  .op _ .reset

theorem witness_CanonicalMemoryIsDeterminedByItsBytes : ∃ m : Memory, m ≠ [] ∧ m.wf ∧ ∀ a, m.read a = m.read a :=
  ⟨[(0x300, 0x12), (0xFFF, 0x34)], by decide, ⟨by decide, by decide⟩, fun _ => rfl⟩

/-! ## Witnesses: whole-machine rules -/

theorem witness_SpecialRegistersHaveOnlyTheirWriters :
    (∃ t, exec (.ldIdx 0x300) start = .next t ∧ ¬Keeps .idx start t) ∧
    (∃ t, exec (.call 0x300) start = .next t ∧ ¬Keeps .stack start t) ∧
    (∃ t, exec (.ldDtVx 3) (start.setV 3 7) = .next t ∧ ¬Keeps .dt (start.setV 3 7) t) ∧
    (∃ t, exec (.ldStVx 3) (start.setV 3 7) = .next t ∧ ¬Keeps .st (start.setV 3 7) t) ∧
    ∃ t, exec (.rnd 3 0xFF) start = .next t ∧ ¬Keeps .draws start t := by
  refine ⟨⟨_, rfl, ?_⟩, ⟨_, rfl, ?_⟩, ⟨_, rfl, ?_⟩, ⟨_, rfl, ?_⟩, _, rfl, ?_⟩
  · show ¬_ = _; decide
  · intro h; exact absurd h.1 (by decide)
  · show ¬_ = _; decide
  · show ¬_ = _; decide
  · show ¬_ = _; decide

theorem witness_KeysAreNeverWrittenAndTheDisplayOnlyByTwo :
    ∃ t, exec .cls (withPixel start 31 63) = .next t ∧ ¬Keeps .disp (withPixel start 31 63) t :=
  ⟨_, rfl, fun h => absurd (h 31 63) (by decide)⟩

theorem witness_MemoryIsWrittenOnlyByTheTwoStores :
    (∃ t, exec (.ldB 3) (start.setIdx 0xFFD) = .next t) ∧ ∃ t, exec (.stRegs 15) (start.setIdx 0xFF0) = .next t :=
  ⟨⟨_, rfl⟩, _, rfl⟩

theorem witness_GeneralRegistersAreWrittenOnlyAsDestinations :
    (∃ t, exec (.addR 1 2) start = .next t) ∧ ¬mayWriteReg (.addR 1 2) 2 ∧
      (∃ t, exec (.ldRegs 3) start = .next t) ∧ ¬mayWriteReg (.ldRegs 3) 4 := by
  refine ⟨⟨_, rfl⟩, ?_, ⟨_, rfl⟩, ?_⟩
  · show ¬(_ ∨ _); decide
  · show ¬_ ≤ _; decide

theorem witness_OtherInstructionsLeaveThePcAtTheNext :
    (∃ t, exec (.ldI 3 0xAB) start = .next t) ∧ ¬transfersControl (.ldI 3 0xAB) ∧
      ∃ t, exec (.seI 3 0x00) start = .next t ∧ t.pc = start.pc + 2 :=
  ⟨⟨_, rfl⟩, id, _, rfl, rfl⟩

/-- Both directions: a wait, and each self-jump. -/
theorem witness_CycleChangesNothingOnlyInAWaitOrASelfJump :
    AtKeyWait (start.placeWord 0xF30A) ∧
    decodeWord (start.placeWord 0x1200).fetchWord = some (.jp 0x200) ∧
    step (start.placeWord 0x1200) = .next (start.placeWord 0x1200) ∧
    decodeWord ((start.setV 0 1).placeWord 0xB1FF).fetchWord = some (.jpV0 0x1FF) ∧
    step ((start.setV 0 1).placeWord 0xB1FF) = .next ((start.setV 0 1).placeWord 0xB1FF) :=
  ⟨⟨by decide, ⟨3, by decide⟩, by decide⟩, by decide, rfl, by decide, rfl⟩

theorem witness_FinishedRunStaysFinished : AtEnd 0x200 (start.placeWord 0x1200) ∧ AtEnd 0xFFE (atTop 0x1FFE) :=
  ⟨⟨by decide, by decide, by decide⟩, by decide, by decide, by decide⟩

theorem witness_KeyWaitGoesOnUntilAKeyAResetOrALoad : AtKeyWait (atTop 0xFF0A) :=
  ⟨by decide, ⟨15, by decide⟩, by decide⟩

/-- Its clause on operations, with one of each kind: a release, a report and an image just past their bounds. -/
theorem witness_KeyWaitGoesOnUntilAKeyAResetOrALoad_operations : ∃ ops : List HostOp, ops.length = 6 ∧
    ∀ op ∈ ops, (∃ b, op = .runCycle b) ∨ op = .advanceTimers ∨ op = .readDisplay ∨
      (∃ k p, op = .setKeyState k p ∧ (p = false ∨ 16 ≤ k)) ∨ ∃ data, op = .loadProgram data ∧ 3584 < data.length := by
  have h : 3584 < (List.replicate 3585 (0xAB : Byte)).length := by rw [List.length_replicate]; decide
  refine ⟨[.runCycle 0, .advanceTimers, .readDisplay, .setKeyState 15 false, .setKeyState 16 true,
    .loadProgram (List.replicate 3585 0xAB)], rfl, ?_⟩
  intro op hop
  simp only [List.mem_cons, List.not_mem_nil, or_false] at hop
  rcases hop with rfl | rfl | rfl | rfl | rfl | rfl
  · exact .inl ⟨_, rfl⟩
  · exact .inr (.inl rfl)
  · exact .inr (.inr (.inl rfl))
  · exact .inr (.inr (.inr (.inl ⟨_, _, rfl, .inl rfl⟩)))
  · exact .inr (.inr (.inr (.inl ⟨_, _, rfl, .inr (Nat.le_refl 16)⟩)))
  · exact .inr (.inr (.inr (.inr ⟨_, rfl, h⟩)))

/-! ## Witnesses: host operations -/

theorem witness_FailedOperationLeavesTheState :
    (perform (.setKeyState 16 true) start).answer = .error (.invalidKeyIndex 16) ∧
      (perform (.runCycle 0) (start.setPc 0xFFF)).answer = .error (.memoryFault 0x1000) := by decide

/-- A non-empty memory in canonical form, and images of no byte, of the most bytes and of one more. -/
theorem witness_LoadCopiesTheImageOrRejectsIt :
    (withBytes start 0x300 [0x12]).mem.wf ∧ ([] : List Byte).length ≤ 3584 ∧
      (List.replicate 3584 (0xAB : Byte)).length ≤ 3584 ∧ 3584 < (List.replicate 3585 (0xAB : Byte)).length := by
  refine ⟨⟨by decide, by decide⟩, by decide, ?_, ?_⟩ <;> rw [List.length_replicate]
  decide

theorem witness_KeyReportSetsOneKey : (perform (.setKeyState 15 true) start).answer = .ok ∧
    (perform (.setKeyState 15 true) start).state.key 15 = true ∧
    (perform (.setKeyState 16 true) start).answer = .error (.invalidKeyIndex 16) := by decide

/-! ## Witnesses: flow -/

theorem witness_NopOnlyAdvances : (start.setPc 0xFFE).pc.toNat ≤ 0xFFE ∧ (start.setPc 0xFFE).fetchWord = 0x0000 := by
  decide

theorem witness_JumpSetsThePc : ∃ t, exec (.jp 0xFFF) start = .next t ∧ step t = .fault (.memoryFault 0x1000) :=
  ⟨_, rfl, rfl⟩

theorem witness_CallPushesTheReturnAddress : (withStack start 15 0 0).sp.val < 16 ∧ start.sp.val < 16 := by decide

theorem witness_ReturnPopsTheNewestEntry : 0 < (withStack start 16 15 0x206).sp.val ∧ 0 < (withStack start 1 0 0x206).sp.val ∧
    ((15 : Fin 16).val + 1 = (withStack start 16 15 0x206).sp.val) := by decide

theorem witness_FullAndEmptyStackRaise : (withStack start 16 0 0).sp = 16 ∧ start.sp = 0 := by decide

/-- A call into the last slot; and one after which an entry above the depth has changed, as a call of the
subroutine's own leaves it. -/
theorem witness_ReturnUndoesTheCall :
    (∃ t, exec (.call 0x300) (withStack start 15 0 0x206) = .next t ∧ ((t.setPc 0x400).setV 3 9).sp = t.sp ∧
      ∀ k : Fin 16, k.val < t.sp.val → ((t.setPc 0x400).setV 3 9).entry k = t.entry k) ∧
    ∃ t, exec (.call 0x300) (withStack start 14 0 0x206) = .next t ∧ (withStack t 15 15 0x304).sp = t.sp ∧
      (∀ k : Fin 16, k.val < t.sp.val → (withStack t 15 15 0x304).entry k = t.entry k) ∧
      (withStack t 15 15 0x304).entry 15 ≠ t.entry 15 :=
  ⟨⟨_, rfl, rfl, fun _ _ => rfl⟩, _, rfl, rfl, by decide, by decide⟩

/-! ## Witnesses: skips, arithmetic -/

theorem witness_RegisterSkipsCompareTwoRegisters : (1 : Nibble) ≠ 0 ∧ (15 : Nibble) ≠ 0 := by decide

/-- The clauses for `x` below 15 and for `x = 15`. -/
theorem witness_AddSetsTheCarry : (14 : Reg) ≠ 15 ∧ ∃ t, exec (.addR 15 1) ((start.setV 15 0xF0).setV 1 0x20) = .next t ∧
    t.v 15 = 1 := ⟨by decide, _, rfl, by decide⟩

theorem witness_SubtractionsSetNoBorrow : (14 : Reg) ≠ 15 ∧
    ∃ t, exec (.sub 15 1) ((start.setV 15 5).setV 1 5) = .next t ∧ t.v 15 = 1 := ⟨by decide, _, rfl, by decide⟩

theorem witness_ShiftsMoveOneBitIntoTheFlag : (14 : Reg) ≠ 15 ∧ (15 : Reg) = 15 ∧
    (∃ t, exec (.shr 15 0) (start.setV 15 0xFF) = .next t ∧ t.v 15 = 0) ∧
    ∃ t, exec (.shl 15 0) (start.setV 15 0xFF) = .next t ∧ t.v 15 = 2 :=
  ⟨by decide, rfl, ⟨_, rfl, by decide⟩, _, rfl, by decide⟩

theorem witness_FlagAndResultGiveTheExactValue : (14 : Reg) ≠ 15 ∧
    (∃ t, exec (.addR 14 15) start = .next t) ∧ (∃ t, exec (.sub 14 15) start = .next t) ∧
    (∃ t, exec (.subn 14 15) start = .next t) ∧ (∃ t, exec (.shr 14 15) start = .next t) ∧
    ∃ t, exec (.shl 14 15) start = .next t :=
  ⟨by decide, ⟨_, rfl⟩, ⟨_, rfl⟩, ⟨_, rfl⟩, ⟨_, rfl⟩, _, rfl⟩

theorem witness_RandomByteIsMasked :
    (atTop 0xC30F).pc.toNat ≤ 0xFFE ∧ decodeWord (atTop 0xC30F).fetchWord = some (.rnd 3 0x0F) := by decide

/-! ## Witnesses: memory -/

theorem witness_DecimalDigitsAreStored :
    (withBytes (start.setIdx 0xFFD) 0xFFF [7]).mem.wf ∧ (start.setIdx 0xFFD).base + 2 < 4096 :=
  ⟨⟨by decide, by decide⟩, by decide⟩

theorem witness_RegistersAreStoredAscending :
    (withBytes (start.setIdx 0xFF0) 0xFFF [7]).mem.wf ∧ (start.setIdx 0xFF0).base + (15 : Reg).val < 4096 :=
  ⟨⟨by decide, by decide⟩, by decide⟩

theorem witness_RegistersAreLoadedAscending : (start.setIdx 0xFF0).base + (15 : Reg).val < 4096 ∧
    (start.setIdx 0xFFF).base + (0 : Reg).val < 4096 ∧ (0 : Reg) < 15 := by decide

/-- Each clause at the least address that is too high. -/
theorem witness_OperandsOutsideMemoryFault :
    (start.setIdx 0xFFE).idx.toNat + 2 = 4096 ∧ (start.setIdx 0xFF1).idx.toNat + (15 : Reg).val = 4096 ∧
      0 < (2 : Nibble).val ∧ (start.setIdx 0xFFF).idx.toNat + (2 : Nibble).val - 1 = 4096 := by decide

theorem witness_LoadAfterStoreRestoresTheRegisters :
    start.mem.wf ∧ ∃ t, exec (.stRegs 15) ((start.setIdx 0xFF0).setV 15 9) = .next t ∧ t.idx = 0xFF0 ∧
      ∀ k : Reg, k ≤ 15 → ((t.setV 3 1).byte (0xFF0 + k.val)) = t.byte (0xFF0 + k.val) :=
  ⟨⟨by decide, by decide⟩, _, rfl, rfl, fun _ _ => rfl⟩

/-! ## Witnesses: display -/

/-- A sprite that covers `(31, 63)`; its rows end at the top of memory. -/
def spriteAtTop : State := ((withBytes start 0xFFF [0x80]).setIdx 0xFFF).setV 0 0x3F |>.setV 1 0x1F

theorem witness_DrawTogglesThePixelsItCovers :
    ((0 : Nibble).val = 0 ∨ start.base + (0 : Nibble).val - 1 < 4096) ∧
    spriteAtTop.base + (1 : Nibble).val - 1 < 4096 ∧ SpriteCovers spriteAtTop 0 1 1 31 63 ∧
    ¬SpriteCovers spriteAtTop 0 1 1 30 63 ∧
    (∃ r c, SpriteCovers (withPixel spriteAtTop 31 63) 0 1 1 r c ∧ (withPixel spriteAtTop 31 63).pixel r c = true) ∧
    ∀ r c, SpriteCovers spriteAtTop 0 1 1 r c → spriteAtTop.pixel r c = false := by
  refine ⟨by decide, by decide, ⟨0, 0, by decide⟩, ?_, ⟨31, 63, ⟨0, 0, by decide⟩, by decide⟩, ?_⟩
  · rintro ⟨k, j, hk, -, hr, -⟩
    have : k = 0 := by simpa using hk
    subst this
    exact absurd hr (by decide)
  · intro r c _
    show ((Vector.replicate 32 (Vector.replicate 64 false))[r.val])[c.val] = false
    simp

theorem witness_SecondDrawRestoresTheDisplay :
    ∃ t w, exec (.drw 0 1 1) spriteAtTop = .next t ∧ exec (.drw 0 1 1) t = .next w ∧ Keeps .disp t t ∧
      (t.v 0).toNat % 64 = (spriteAtTop.v 0).toNat % 64 ∧ (t.v 1).toNat % 32 = (spriteAtTop.v 1).toNat % 32 ∧
      ∀ k < (1 : Nibble).val, t.byte (t.base + k) = spriteAtTop.byte (spriteAtTop.base + k) :=
  ⟨_, _, rfl, rfl, fun _ _ => rfl, rfl, rfl, fun _ _ => rfl⟩

/-! ## Witnesses: keys -/

theorem witness_KeySkipsTestTheNamedKey : ((start.setV 3 15).v 3).toNat = (15 : Fin 16).val ∧
    16 ≤ ((start.setV 3 16).v 3).toNat := by decide

theorem witness_KeyWaitTakesTheLeastPressedKey :
    ((withKeyDown start 15).key 15 = true ∧ ∀ j < (15 : Fin 16), (withKeyDown start 15).key j = false) ∧
    (∀ k, (atTop 0xF30A).key k = false) ∧ (atTop 0xF30A).pc.toNat ≤ 0xFFE ∧
    decodeWord (atTop 0xF30A).fetchWord = some (.ldVxK 3) := by decide

end Sys2Proof.Tests
end

section
/-! SUPPORT. The frame of every instruction: which components its rule may write, and that it leaves every other
one as it was (spec/10_state.md R13, R15, R18 to R21). -/

namespace Sys2Proof.Machine

variable {s t u : State} {ps qs : List Part} {i : Instr}

/-! ## Components left alone -/

/-- A component is the same data in two states. `Keeps` compares what the accessors read; this also compares the
cell list of memory. -/
def Same (p : Part) (s t : State) : Prop :=
  match p with
  | .mem => t.mem = s.mem
  | .regs => t.regs = s.regs
  | .idx => t.idx = s.idx
  | .pc => t.pc = s.pc
  | .stack => t.sp = s.sp ∧ t.stack = s.stack
  | .disp => t.disp = s.disp
  | .keys => t.keys = s.keys
  | .dt => t.dt = s.dt
  | .st => t.st = s.st
  | .draws => t.draws = s.draws

/-- Every component but those listed is the same data. -/
def SameBut (ps : List Part) (s t : State) : Prop := ∀ p, p ∉ ps → Same p s t

theorem Same.keeps {p : Part} (h : Same p s t) : Keeps p s t := by
  cases p with
  | mem => exact fun a => congrArg (Memory.read · a) h
  | regs => exact fun i => congrArg (fun r : Regs => r[i.val]) h
  | stack => exact ⟨h.1, fun k => congrArg (fun v : Vector Word 16 => v[k.val]) h.2⟩
  | disp => exact fun r c => congrArg (fun d : Display => d[r.val][c.val]) h
  | keys => exact fun k => congrArg (fun x : Keys => x[k.val]) h
  | idx | pc | dt | st | draws => exact h

theorem Same.trans {p : Part} (h : Same p s t) (h' : Same p t u) : Same p s u := by
  cases p with
  | stack => exact ⟨h'.1.trans h.1, h'.2.trans h.2⟩
  | mem | regs | idx | pc | disp | keys | dt | st | draws => exact Eq.trans h' h

theorem SameBut.trans (h : SameBut ps s t) (h' : SameBut qs t u) : SameBut (ps ++ qs) s u :=
  fun p hp => (h p fun hps => hp (List.mem_append_left qs hps)).trans
    (h' p fun hqs => hp (List.mem_append_right ps hqs))

theorem SameBut.mono (h : SameBut ps s t) (hsub : ps ⊆ qs) : SameBut qs s t :=
  fun p hp => h p fun hps => hp (hsub hps)

/-! ## The frame of each update -/

theorem sameBut_refl (s : State) : SameBut [] s s := by
  intro p _; cases p <;> simp [Same]

theorem sameBut_setV (s : State) (x : Reg) (b : Byte) : SameBut [.regs] s (s.setV x b) := by
  intro p hp; cases p <;> simp_all [Same]

theorem sameBut_setFlag (s : State) (c : Bool) : SameBut [.regs] s (s.setFlag c) := sameBut_setV s _ _

theorem sameBut_setRegs (s : State) (r : Regs) : SameBut [.regs] s (s.setRegs r) := by
  intro p hp; cases p <;> simp_all [Same]

theorem sameBut_setIdx (s : State) (w : Word) : SameBut [.idx] s (s.setIdx w) := by
  intro p hp; cases p <;> simp_all [Same]

theorem sameBut_setPc (s : State) (w : Word) : SameBut [.pc] s (s.setPc w) := by
  intro p hp; cases p <;> simp_all [Same]

theorem sameBut_rewind (s : State) : SameBut [.pc] s s.rewind := sameBut_setPc s _

theorem sameBut_skipIf (s : State) (c : Bool) : SameBut [.pc] s (s.skipIf c) := by
  intro p hp; cases p <;> simp_all [Same]

theorem sameBut_setMem (s : State) (m : Memory) : SameBut [.mem] s (s.setMem m) := by
  intro p hp; cases p <;> simp_all [Same]

theorem sameBut_setDisp (s : State) (d : Display) : SameBut [.disp] s (s.setDisp d) := by
  intro p hp; cases p <;> simp_all [Same]

theorem sameBut_setDt (s : State) (b : Byte) : SameBut [.dt] s (s.setDt b) := by
  intro p hp; cases p <;> simp_all [Same]

theorem sameBut_setSt (s : State) (b : Byte) : SameBut [.st] s (s.setSt b) := by
  intro p hp; cases p <;> simp_all [Same]

theorem sameBut_countDraw (s : State) : SameBut [.draws] s s.countDraw := by
  intro p hp; cases p <;> simp_all [Same]

theorem sameBut_push (s : State) (w : Word) (h : s.sp.val < 16) : SameBut [.stack] s (s.push w h) := by
  intro p hp; cases p <;> simp_all [Same]

theorem sameBut_drop (s : State) : SameBut [.stack] s s.drop := by
  intro p hp; cases p <;> simp_all [Same]

/-! ## The frame of each instruction -/

/-- The components an instruction's rule may write. -/
def writes : Instr → List Part
  | .nop => []
  | .cls => [.disp]
  | .ret | .call _ => [.stack, .pc]
  | .jp _ | .jpV0 _ | .seI _ _ | .sneI _ _ | .seR _ _ | .sneR _ _ | .skp _ | .sknp _ => [.pc]
  | .ldI _ _ | .addI _ _ | .ldR _ _ | .orR _ _ | .andR _ _ | .xorR _ _ | .addR _ _ | .sub _ _ | .shr _ _ | .subn _ _
  | .shl _ _ | .ldVxDt _ | .ldRegs _ => [.regs]
  | .rnd _ _ => [.regs, .draws]
  | .ldVxK _ => [.regs, .pc]
  | .drw _ _ _ => [.disp, .regs]
  | .ldIdx _ | .addIdx _ | .ldF _ => [.idx]
  | .ldDtVx _ => [.dt]
  | .ldStVx _ => [.st]
  | .ldB _ | .stRegs _ => [.mem]

theorem exec_sameBut_writes (h : exec i s = .next t) : SameBut (writes i) s t := by
  cases i with
  | nop => cases h; exact sameBut_refl s
  | cls => cases h; exact sameBut_setDisp s _
  | ret =>
    obtain ⟨hsp, rfl⟩ := exec_ret_next.1 h
    exact (sameBut_drop s).trans (sameBut_setPc _ _)
  | call =>
    obtain ⟨hsp, rfl⟩ := exec_call_next.1 h
    exact (sameBut_push s _ hsp).trans (sameBut_setPc _ _)
  | jp | jpV0 => cases h; exact sameBut_setPc s _
  | seI | sneI | seR | sneR => cases h; exact sameBut_skipIf s _
  | skp =>
    obtain ⟨-, rfl⟩ := exec_skp_next.1 h
    exact sameBut_skipIf s _
  | sknp =>
    obtain ⟨-, rfl⟩ := exec_sknp_next.1 h
    exact sameBut_skipIf s _
  | ldI | addI | ldR | orR | andR | xorR | ldVxDt => cases h; exact sameBut_setV s _ _
  | addR | sub | subn | shr | shl =>
    cases h
    exact ((sameBut_setV s _ _).trans (sameBut_setV _ _ _)).mono (by simp [writes])
  | rnd => cases h; exact (sameBut_setV s _ _).trans (sameBut_countDraw _)
  | ldVxK =>
    obtain ⟨k, -, rfl⟩ | ⟨-, rfl⟩ := exec_ldVxK_next.1 h
    · exact (sameBut_setV s _ _).mono (by simp [writes])
    · exact (sameBut_rewind s).mono (by simp [writes])
  | drw =>
    obtain ⟨-, rfl⟩ := exec_drw_next.1 h
    exact (sameBut_setDisp s _).trans (sameBut_setFlag _ _)
  | ldRegs =>
    obtain ⟨-, rfl⟩ := exec_ldRegs_next.1 h
    exact sameBut_setRegs s _
  | ldIdx | addIdx | ldF => cases h; exact sameBut_setIdx s _
  | ldDtVx => cases h; exact sameBut_setDt s _
  | ldStVx => cases h; exact sameBut_setSt s _
  | ldB =>
    obtain ⟨-, rfl⟩ := exec_ldB_next.1 h
    exact sameBut_setMem s _
  | stRegs =>
    obtain ⟨-, rfl⟩ := exec_stRegs_next.1 h
    exact sameBut_setMem s _

theorem exec_keepsAllBut_writes (h : exec i s = .next t) : KeepsAllBut (writes i) s t :=
  fun p hp => (exec_sameBut_writes h p hp).keeps

/-- A component that has changed is one the instruction writes. -/
theorem mem_writes_of_not_keeps {p : Part} (h : exec i s = .next t) (hp : ¬Keeps p s t) : p ∈ writes i := by
  by_contra hw
  exact hp (exec_keepsAllBut_writes h p hw)

end Sys2Proof.Machine
end

section
/-! SUPPORT. The whole-machine rules on who writes what (spec/10_state.md R12 to R21), from the frame of each
instruction. -/

namespace Sys2Proof.Machine

variable {s t : State} {i : Instr}

/-! ## The writers of each component -/

theorem idx_mem_writes : .idx ∈ writes i ↔ (∃ nnn, i = .ldIdx nnn) ∨ (∃ x, i = .addIdx x) ∨ ∃ x, i = .ldF x := by
  cases i <;> simp [writes]

theorem stack_mem_writes : .stack ∈ writes i ↔ i = .ret ∨ ∃ nnn, i = .call nnn := by
  cases i <;> simp [writes]

theorem dt_mem_writes : .dt ∈ writes i ↔ ∃ x, i = .ldDtVx x := by
  cases i <;> simp [writes]

theorem st_mem_writes : .st ∈ writes i ↔ ∃ x, i = .ldStVx x := by
  cases i <;> simp [writes]

theorem draws_mem_writes : .draws ∈ writes i ↔ ∃ x nn, i = .rnd x nn := by
  cases i <;> simp [writes]

theorem disp_mem_writes : .disp ∈ writes i ↔ i = .cls ∨ ∃ x y n, i = .drw x y n := by
  cases i <;> simp [writes]

theorem keys_not_mem_writes : .keys ∉ writes i := by
  cases i <;> simp [writes]

theorem pc_mem_writes : .pc ∈ writes i ↔ transfersControl i := by
  cases i <;> simp [writes, transfersControl]

/-- Settles O18, from the frame of each instruction. -/
theorem specialRegistersHaveOnlyTheirWriters : Obligations.SpecialRegistersHaveOnlyTheirWriters := fun _ _ _ h =>
  ⟨fun hp => idx_mem_writes.1 (mem_writes_of_not_keeps h hp),
    fun hp => stack_mem_writes.1 (mem_writes_of_not_keeps h hp),
    fun hp => dt_mem_writes.1 (mem_writes_of_not_keeps h hp),
    fun hp => st_mem_writes.1 (mem_writes_of_not_keeps h hp),
    fun hp => draws_mem_writes.1 (mem_writes_of_not_keeps h hp)⟩

/-- Settles O19, from the frame of each instruction. -/
theorem keysAreNeverWrittenAndTheDisplayOnlyByTwo : Obligations.KeysAreNeverWrittenAndTheDisplayOnlyByTwo :=
  fun _ _ _ h => ⟨exec_keepsAllBut_writes h .keys keys_not_mem_writes,
    fun hp => disp_mem_writes.1 (mem_writes_of_not_keeps h hp)⟩

/-! ## General registers -/

/-- Settles O21: the instructions that write registers one group at a time, the others by their frame. -/
theorem generalRegistersAreWrittenOnlyAsDestinations : Obligations.GeneralRegistersAreWrittenOnlyAsDestinations := by
  intro i s t r h hr
  cases i with
  | ldI | addI | ldR | orR | andR | xorR | rnd | ldVxDt =>
    cases h
    have hx : ¬r = _ := hr
    simp [hx]
  | addR | sub | subn | shr | shl =>
    cases h
    obtain ⟨hx, hflag⟩ := not_or.1 hr
    simp [hx, hflag]
  | ldVxK =>
    have hx : ¬r = _ := hr
    obtain ⟨k, -, rfl⟩ | ⟨-, rfl⟩ := exec_ldVxK_next.1 h
    · simp [hx]
    · exact (sameBut_rewind s .regs (by simp)).keeps r
  | drw =>
    have hflag : ¬r = 15 := hr
    obtain ⟨-, rfl⟩ := exec_drw_next.1 h
    simp [hflag]
  | ldRegs x =>
    have hx : ¬r.val < 0 + (x.val + 1) := fun hlt => hr (Nat.le_of_lt_succ (by omega))
    obtain ⟨-, rfl⟩ := exec_ldRegs_next.1 h
    rw [State.setRegs_v, load_getElem _ _ _ _ r.isLt, Memory.readBytes_length, if_neg fun hin => hx hin.2]
    rfl
  | _ => exact exec_keepsAllBut_writes h .regs (by simp [writes]) r

/-! ## The program counter -/

theorem State.skipIf_pc_cases (s : State) (c : Bool) : (s.skipIf c).pc = s.pc ∨ (s.skipIf c).pc = s.pc + 2 := by
  cases c with
  | false => exact .inl rfl
  | true => exact .inr rfl

/-- A skip leaves `pc` at the next instruction or at the one after it (R85). -/
theorem exec_skip_pc (h : exec i s = .next t)
    (hi : (∃ x y, i = .seR x y ∨ i = .sneR x y ∨ i = .skp x ∨ i = .sknp x) ∨ ∃ x nn, i = .seI x nn ∨ i = .sneI x nn) :
    t.pc = s.pc ∨ t.pc = s.pc + 2 := by
  obtain ⟨c, rfl⟩ : ∃ c, t = s.skipIf c := by
    rcases hi with ⟨x, y, rfl | rfl | rfl | rfl⟩ | ⟨x, nn, rfl | rfl⟩
    · cases h; exact ⟨_, rfl⟩
    · cases h; exact ⟨_, rfl⟩
    · exact (exec_skp_next.1 h).imp' _ fun _ ht => ht
    · exact (exec_sknp_next.1 h).imp' _ fun _ ht => ht
    · cases h; exact ⟨_, rfl⟩
    · cases h; exact ⟨_, rfl⟩
  exact s.skipIf_pc_cases c

/-- Settles O22: what writes `pc` transfers control, and the skips by their common rule. -/
theorem otherInstructionsLeaveThePcAtTheNext : Obligations.OtherInstructionsLeaveThePcAtTheNext := fun _ _ _ h =>
  ⟨fun hi => exec_keepsAllBut_writes h .pc (mt pc_mem_writes.1 hi), exec_skip_pc h⟩

end Sys2Proof.Machine
end

section
/-! SUPPORT. The invariant of R24: it holds after reset, and every instruction, cycle and operation of the boundary
keeps it. -/

namespace Sys2Proof.Machine

variable {s t : State} {i : Instr}

/-! ## What an instruction does to the components the invariant speaks of -/

theorem exec_mem_wf (hwf : s.mem.wf) (h : exec i s = .next t) : t.mem.wf := by
  cases i with
  | ldB =>
    obtain ⟨hin, rfl⟩ := exec_ldB_next.1 h
    exact Memory.writeBytes_wf hwf _ (.inl (((inBounds_iff _ _).1 hin).resolve_left (by omega)))
  | stRegs =>
    obtain ⟨hin, rfl⟩ := exec_stRegs_next.1 h
    refine Memory.writeBytes_wf hwf _ (.inl ?_)
    rw [regsUpTo_length]
    exact ((inBounds_iff _ _).1 hin).resolve_left (by omega)
  | _ => exact (exec_sameBut_writes h .mem (by simp [writes])).symm ▸ hwf

/-- A call stack entry changes only to the address after the instruction (R80). -/
theorem exec_entry (h : exec i s = .next t) (k : Fin 16) : t.entry k = s.entry k ∨ t.entry k = s.pc := by
  cases i with
  | ret =>
    obtain ⟨_, rfl⟩ := exec_ret_next.1 h
    exact .inl rfl
  | call =>
    obtain ⟨hsp, rfl⟩ := exec_call_next.1 h
    rw [State.setPc_entry, State.push_entry]
    split
    · exact .inr rfl
    · exact .inl rfl
  | _ => exact .inl ((exec_keepsAllBut_writes h .stack (by simp [writes])).2 k)

theorem zextAddr_le (nnn : Addr) : (zextAddr nnn).toNat ≤ 0xFFF := by
  have := nnn.isLt
  rw [zextAddr_toNat]
  omega

theorem offsetTarget_le (s : State) (nnn : Addr) : (s.offsetTarget nnn).toNat ≤ 0x10FE := by
  have := nnn.isLt
  have := (s.v 0).isLt
  rw [offsetTarget_toNat]
  omega

/-! ## The invariant along a cycle -/

theorem entry_le (hs : s.Inv) (k : Fin 16) : (s.entry k).toNat ≤ 0x1000 := by
  obtain ⟨-, -, hstack⟩ := hs
  obtain h0 | ⟨-, hle⟩ := hstack k
  · rw [h0]; decide
  · exact hle

/-- No instruction leaves `pc` above 0x10FE, the greatest target of a jump with offset (R14): a return goes to a stack
entry, a skip or a key wait moves by 2. -/
theorem exec_pc_le (hs : s.Inv) (hlo : 2 ≤ s.pc.toNat) (hhi : s.pc.toNat ≤ 0x1000) (h : exec i s = .next t) :
    t.pc.toNat ≤ 0x10FE := by
  have hnear (hp : t.pc = s.pc ∨ t.pc = s.pc + 2) : t.pc.toNat ≤ 0x10FE := by bv_omega
  cases i with
  | ret =>
    obtain ⟨hsp, rfl⟩ := exec_ret_next.1 h
    exact (entry_le hs ⟨s.sp.val - 1, by omega⟩).trans (by decide)
  | jp nnn => cases h; exact (zextAddr_le nnn).trans (by decide)
  | call nnn =>
    obtain ⟨-, rfl⟩ := exec_call_next.1 h
    exact (zextAddr_le nnn).trans (by decide)
  | jpV0 nnn => cases h; exact offsetTarget_le s nnn
  | seI x nn => exact hnear (exec_skip_pc h (.inr ⟨x, nn, .inl rfl⟩))
  | sneI x nn => exact hnear (exec_skip_pc h (.inr ⟨x, nn, .inr rfl⟩))
  | seR x y => exact hnear (exec_skip_pc h (.inl ⟨x, y, .inl rfl⟩))
  | sneR x y => exact hnear (exec_skip_pc h (.inl ⟨x, y, .inr (.inl rfl)⟩))
  | skp x => exact hnear (exec_skip_pc h (.inl ⟨x, x, .inr (.inr (.inl rfl))⟩))
  | sknp x => exact hnear (exec_skip_pc h (.inl ⟨x, x, .inr (.inr (.inr rfl))⟩))
  | ldVxK =>
    obtain ⟨k, -, rfl⟩ | ⟨-, rfl⟩ := exec_ldVxK_next.1 h
    · exact hnear (.inl rfl)
    · rw [State.rewind_pc]; bv_omega
  | _ => exact hnear (.inl (exec_sameBut_writes h .pc (by simp [writes])))

/-- An instruction keeps the invariant where its `pc` is one a fetch has advanced to; `pc` and the stack bound each
other, by call and return. -/
theorem exec_inv (hs : s.Inv) (hlo : 2 ≤ s.pc.toNat) (hhi : s.pc.toNat ≤ 0x1000) (h : exec i s = .next t) : t.Inv := by
  have ⟨hwf, _, hstack⟩ := hs
  refine ⟨exec_mem_wf hwf h, exec_pc_le hs hlo hhi h, fun k => ?_⟩
  obtain hk | hk := exec_entry h k
  · rw [hk]; exact hstack k
  · rw [hk]; exact .inr ⟨hlo, hhi⟩

theorem execWithInput_inv {b : Byte} (hs : s.Inv) (hlo : 2 ≤ s.pc.toNat) (hhi : s.pc.toNat ≤ 0x1000)
    (h : execWithInput b i s = .next t) : t.Inv := by
  obtain ⟨x, nn, -, rfl⟩ | ⟨-, h⟩ := (execWithInput_next s).1 h
  · exact hs
  · exact exec_inv hs hlo hhi h

/-- A cycle keeps the invariant when its execute stage does at the advanced `pc`. -/
theorem cycleWith_inv {run : Instr → State → Out}
    (hrun : ∀ {i u t}, u.Inv → 2 ≤ u.pc.toNat → u.pc.toNat ≤ 0x1000 → run i u = .next t → t.Inv)
    (hs : s.Inv) (h : cycleWith run s = .next t) : t.Inv := by
  obtain ⟨hf, i, -, h⟩ := cycleWith_next.1 h
  obtain ⟨hwf, -, hstack⟩ := hs
  have hpc := (fetchable_iff s).1 hf
  have hadv : s.advance.pc.toNat = s.pc.toNat + 2 := by rw [State.advance_pc]; bv_omega
  exact hrun (u := s.advance) ⟨hwf, by omega, hstack⟩ (by omega) (by omega) h

theorem step_inv (hs : s.Inv) (h : step s = .next t) : t.Inv := cycleWith_inv exec_inv hs h

theorem runCycle_inv {b : Byte} (hs : s.Inv) (h : runCycle b s = .next t) : t.Inv :=
  cycleWith_inv execWithInput_inv hs h

/-- Settles O15, from the invariant along a cycle. -/
theorem stepKeepsTheInvariant : Obligations.StepKeepsTheInvariant := fun _ _ hs h => step_inv hs h

/-! ## The invariant along the operations of the boundary -/

theorem reset_entry (k : Fin 16) : State.reset.entry k = 0 := Vector.getElem_replicate _

/-- Settles O14: memory lists nothing, `pc` is 0x200 and every entry is 0. -/
theorem resetMeetsTheInvariant : Obligations.ResetMeetsTheInvariant :=
  ⟨⟨.nil, by simp [State.reset]⟩, by decide, fun k => .inl (reset_entry k)⟩

theorem loadProgram_inv (hs : s.Inv) (data : List Byte) : (perform (.loadProgram data) s).state.Inv := by
  obtain hlen | hlen := Nat.lt_or_ge 3584 data.length
  · rwa [perform_loadProgram_of_gt s hlen]
  · rw [perform_loadProgram_of_le s hlen]
    obtain ⟨hwf, hpc, hstack⟩ := hs
    exact ⟨Memory.writeBytes_wf hwf data (.inl (by rw [memSize_eq]; omega)), hpc, hstack⟩

theorem setKeyState_inv (hs : s.Inv) (k : Nat) (p : Bool) : (perform (.setKeyState k p) s).state.Inv := by
  obtain hk | hk := Nat.lt_or_ge k 16
  · rwa [perform_setKeyState_of_lt s hk]
  · rwa [perform_setKeyState_of_ge s hk]

/-- Settles O60, one operation at a time. -/
theorem everyOperationKeepsTheInvariant : Obligations.EveryOperationKeepsTheInvariant := by
  intro op s hs
  cases op with
  | init | reset => exact resetMeetsTheInvariant
  | loadProgram data => exact loadProgram_inv hs data
  | runCycle b =>
    obtain h | h := perform_runCycle_state s b
    · exact runCycle_inv hs h
    · rwa [h]
  | advanceTimers | readDisplay => exact hs
  | setKeyState k p => exact setKeyState_inv hs k p

/-- Settles O16, by induction on the history. -/
theorem reachableStatesMeetTheInvariant : Obligations.ReachableStatesMeetTheInvariant := by
  intro s hs
  induction hs with
  | reset => exact resetMeetsTheInvariant
  | op op _ ih => exact everyOperationKeepsTheInvariant op _ ih

end Sys2Proof.Machine
end

section
/-! SUPPORT. Memory in canonical form is determined by its bytes (spec/10_state.md R16), and the values after reset
(R23). -/

namespace Sys2Proof.Machine

/-! ## Canonical memory -/

/-- In canonical form exactly the bytes that differ from their reset contents are listed. -/
theorem Memory.mem_iff_read {m : Memory} (h : m.wf) (c : Host.Cell) :
    c ∈ m ↔ m.read c.1 = c.2 ∧ c.2 ≠ background c.1 := by
  constructor
  · exact fun hc => ⟨read_of_mem h hc, (h.2 c hc).2⟩
  · rintro ⟨hread, hne⟩
    by_contra hc
    refine hne (hread ▸ read_of_not_mem fun d hd hda => hc ?_)
    have hval : d.2 = c.2 := by rw [← read_of_mem h hd, hda, hread]
    rwa [← Prod.ext hda hval]

/-- Settles O17: both lists are sorted and hold the same cells. -/
theorem canonicalMemoryIsDeterminedByItsBytes : Obligations.CanonicalMemoryIsDeterminedByItsBytes := by
  intro m n hm hn hread
  have hcells : ∀ c, c ∈ m ↔ c ∈ n := fun c => by rw [Memory.mem_iff_read hm, Memory.mem_iff_read hn, hread]
  exact List.Pairwise.eq_of_mem_iff (r := Prod.fst ⁻¹'o (· < ·)) hm.1 hn.1 hcells

/-! ## The values after reset -/

theorem background_font {a : Nat} (ha : a < 80) : Memory.background a = Config.font a := by
  simp [Memory.background, ha]

theorem background_zero {a : Nat} (ha : 80 ≤ a) : Memory.background a = 0 := by
  simp [Memory.background, Nat.not_lt.2 ha]

/-- The documented value of every component after a reset, whatever the model's count of draws. -/
theorem resetBlock_values (s : State) :
    (∀ a, a < 80 → s.resetBlock.byte a = Config.font a) ∧ (∀ a, 80 ≤ a → a ≤ 4095 → s.resetBlock.byte a = 0) ∧
      (∀ i, s.resetBlock.v i = 0) ∧ s.resetBlock.idx = 0 ∧ s.resetBlock.pc = 0x200 ∧
      (∀ k, s.resetBlock.entry k = 0) ∧ s.resetBlock.sp = 0 ∧ (∀ r c, s.resetBlock.pixel r c = false) ∧
      (∀ k, s.resetBlock.key k = false) ∧ s.resetBlock.dt = 0 ∧ s.resetBlock.st = 0 ∧
      s.resetBlock.soundActive = false := by
  refine ⟨fun _ ha => background_font ha, fun _ ha _ => background_zero ha, fun i => ?_, rfl, rfl, reset_entry, rfl,
    fun r c => ?_, fun k => ?_, rfl, rfl, rfl⟩
  · simp [State.v, State.resetBlock, State.reset]
  · simp [State.pixel, State.resetBlock, State.reset]
  · simp [State.key, State.resetBlock, State.reset]

/-- Settles O26: `State.reset` is what a reset makes of itself. -/
theorem resetGivesTheDocumentedValues : Obligations.ResetGivesTheDocumentedValues := by
  refine fun s => ⟨rfl, rfl, fun t ht => ?_⟩
  obtain rfl | rfl := List.mem_pair.1 ht
  · exact resetBlock_values State.reset
  · exact resetBlock_values s

end Sys2Proof.Machine
end

section
/-! SUPPORT. The memory rules: the byte order of a fetch (spec/20_memory.md R30), the word placed for the next step
(log entry 14), and the two instructions that write memory (R32). -/

namespace Sys2Proof.Machine

variable {s t : State} {i : Instr}

/-! ## A run of bytes stored in memory -/

/-- Byte `k` of a run written from `a` is read at `a + k`. -/
theorem Memory.read_writeBytes_add {m : Memory} (h : m.wf) {bs : List Byte} {a k : Nat}
    (ha : a + bs.length ≤ Config.memSize) (hk : k < bs.length) : (m.writeBytes a bs).read (a + k) = bs.getD k 0 := by
  rw [read_writeBytes h bs (.inl ha), if_pos (by omega), Nat.add_sub_cancel_left]

/-- Storing a run of bytes keeps every byte outside it (R39). -/
theorem keepsBytesOutside_writeBytes (s : State) (a : Nat) (bs : List Byte) :
    KeepsBytesOutside a bs.length s (s.setMem (s.mem.writeBytes a bs)) :=
  fun _ hb => Memory.read_writeBytes_of_outside s.mem bs hb

/-! ## The fetched word -/

theorem fetchWord_toNat (s : State) :
    s.fetchWord.toNat = 256 * (s.byte s.pc.toNat).toNat + (s.byte (s.pc.toNat + 1)).toNat := by
  rw [State.fetchWord, wordOfBytes_toNat, Nat.mul_comm]

/-- A fetch inside a run of bytes that has been stored reads the run (R30, R132). -/
theorem fetchWord_writeBytes (hwf : s.mem.wf) {bs : List Byte} {a k : Nat} (ha : a + bs.length ≤ Config.memSize)
    (hk : k + 1 < bs.length) (hpc : s.pc.toNat = a + k) :
    (s.setMem (s.mem.writeBytes a bs)).fetchWord = wordOfBytes (bs.getD k 0) (bs.getD (k + 1) 0) := by
  simp only [State.fetchWord, State.setMem_pc, State.setMem_byte, hpc, Nat.add_assoc]
  rw [Memory.read_writeBytes_add hwf ha (by omega), Memory.read_writeBytes_add hwf ha hk]

/-- Settles O6: the value of the two bytes, which in a loaded image are the image's own. -/
theorem fetchReadsTheWordBigEndian : Obligations.FetchReadsTheWordBigEndian := by
  refine ⟨fetchWord_toNat, fun s hhi hlo => ?_, fun s data k hwf hlen hk hpc => ?_⟩
  · rw [State.fetchWord, hhi, hlo]
    rfl
  · have ha : 0x200 + data.length ≤ Config.memSize := by rw [memSize_eq]; omega
    rw [perform_loadProgram_of_le s hlen, accept_state, fetchWord_writeBytes hwf ha hk hpc, wordOfBytes_toNat,
      Nat.mul_comm]

/-! ## The word placed for the next step -/

theorem placeWord_of_fetchable (h : s.fetchable = true) (w : Word) :
    s.placeWord w = s.setMem (s.mem.writeBytes s.pc.toNat [highByte w, lowByte w]) := by
  rw [State.placeWord, if_pos h]

/-- Where `pc` cannot be fetched from, the word goes to the load address. -/
theorem placeWord_of_not_fetchable (h : ¬s.fetchable = true) (w : Word) :
    s.placeWord w = (s.setPc 0x200).placeWord w := by
  rw [placeWord_of_fetchable (s := s.setPc 0x200) rfl, State.placeWord, if_neg h]
  rfl

/-- The next fetch reads the word placed. -/
theorem fetchWord_placeWord (hwf : s.mem.wf) (w : Word) : (s.placeWord w).fetchWord = w := by
  have hplace {u : State} (hu : u.mem.wf) (hf : u.fetchable = true) : (u.placeWord w).fetchWord = w := by
    have hin : u.pc.toNat + 2 ≤ Config.memSize := by have := (fetchable_iff u).1 hf; rw [memSize_eq]; omega
    rw [placeWord_of_fetchable hf,
      fetchWord_writeBytes (bs := [highByte w, lowByte w]) (k := 0) hu hin Nat.one_lt_two rfl]
    exact wordOfBytes_high_low w
  by_cases hf : s.fetchable = true
  · exact hplace hwf hf
  · rw [placeWord_of_not_fetchable hf]
    exact hplace hwf rfl

/-- The step from a state with a legal word placed runs the word's instruction. -/
theorem step_placeWord (hwf : s.mem.wf) {w : Word} (hi : decodeWord w = some i) :
    step (s.placeWord w) = exec i (s.placeWord w).advance :=
  cycleWith_of_decode (placeWord_fetchable s w) (by rw [fetchWord_placeWord hwf, hi])

/-- Laid out as bytes and read back, a table word decodes as itself (R30). -/
theorem decodeTableWord_eq (nbits w : Nat) : decodeTableWord nbits w = decodeWord (tableWord nbits w) := by
  rw [decodeTableWord, decode_bytes]
  cases decodeWord (tableWord nbits w) <;> rfl

/-- Settles O9: the word placed is the word fetched, and placing it stores two bytes at `pc`. -/
theorem placedWordIsTheNextToRun : Obligations.PlacedWordIsTheNextToRun := by
  intro s w i hwf hi
  rw [decodeTableWord_eq] at hi
  refine ⟨step_placeWord hwf hi, fun hpc => ?_⟩
  rw [State.withFetchWord, placeWord_of_fetchable ((fetchable_iff s).2 hpc)]
  exact ⟨fun p hp => (sameBut_setMem s _ p hp).keeps, keepsBytesOutside_writeBytes s _ [_, _]⟩

/-! ## The writers of memory -/

theorem mem_mem_writes : .mem ∈ writes i ↔ (∃ x, i = .ldB x) ∨ ∃ x, i = .stRegs x := by
  cases i <;> simp [writes]

theorem exec_ldB_keepsBytesOutside {x : Reg} (h : exec (.ldB x) s = .next t) : KeepsBytesOutside s.base 3 s t := by
  obtain ⟨-, rfl⟩ := exec_ldB_next.1 h
  exact keepsBytesOutside_writeBytes s s.base (bcdDigits (s.v x))

theorem exec_stRegs_keepsBytesOutside {x : Reg} (h : exec (.stRegs x) s = .next t) :
    KeepsBytesOutside s.base (x.val + 1) s t := by
  obtain ⟨-, rfl⟩ := exec_stRegs_next.1 h
  rw [← regsUpTo_length s x]
  exact keepsBytesOutside_writeBytes s s.base (s.regsUpTo x)

/-- Settles O20: the two stores by what they store, every other instruction by its frame. -/
theorem memoryIsWrittenOnlyByTheTwoStores : Obligations.MemoryIsWrittenOnlyByTheTwoStores := by
  intro i s t h
  by_cases hmem : .mem ∈ writes i
  · obtain ⟨x, rfl⟩ | ⟨x, rfl⟩ := mem_mem_writes.1 hmem
    · exact .inl ⟨x, rfl, exec_ldB_keepsBytesOutside h⟩
    · exact .inr (.inl ⟨x, rfl, exec_stRegs_keepsBytesOutside h⟩)
  · exact .inr (.inr (exec_keepsAllBut_writes h .mem hmem))

end Sys2Proof.Machine
end

section
/-! SUPPORT. The decoder and the encoder undo each other (spec/30_encoding.md R51, R53, R55, R58). -/

namespace Sys2Proof

/-! ## From the instruction to its word and back -/

/-- Decoding an instruction's word gives the instruction back, each format by the fields it packs. -/
theorem decodeWord_encode (i : Instr) : decodeWord (encode i) = some i := by
  cases i
  case nop | cls | ret => rfl
  case jp | call | ldIdx | jpV0 => simp [encode, decodeWord, fieldOp_packNNN, fieldNNN_packNNN]
  case seI | sneI | ldI | addI | rnd =>
    simp [encode, decodeWord, fieldOp_packXNN, fieldX_packXNN, fieldNN_packXNN]
  case skp | sknp => simp [encode, decodeWord, decodeKey, fieldOp_packXNN, fieldX_packXNN, slice_nn_packXNN]
  case ldVxDt | ldVxK | ldDtVx | ldStVx | addIdx | ldF | ldB | stRegs | ldRegs =>
    simp [encode, decodeWord, decodeMisc, fieldOp_packXNN, fieldX_packXNN, slice_nn_packXNN]
  case seR | sneR => simp [encode, decodeWord, fieldOp_packXYN, fieldX_packXYN, fieldY_packXYN, slice_n_packXYN]
  case ldR | orR | andR | xorR | addR | sub | shr | subn | shl =>
    simp [encode, decodeWord, decodeAlu, fieldOp_packXYN, fieldX_packXYN, fieldY_packXYN, slice_n_packXYN]
  case drw => simp [encode, decodeWord, fieldOp_packXYN, fieldX_packXYN, fieldY_packXYN, fieldN_packXYN]

/-- Settles O1: the word by its format, and its two bytes because they are the bytes of that word (R30). -/
theorem encodedInstructionDecodesToItself : Obligations.EncodedInstructionDecodesToItself := by
  intro i rest
  have hword := decodeWord_encode i
  have hbytes := decode_bytes (encode i) rest
  rw [hword] at hbytes
  exact ⟨hword, hbytes⟩

/-- Settles O5: each legal word is the encoding of the instruction named, and the illegal ones are computed. -/
theorem wordsOfEachFamilyDecode : Obligations.WordsOfEachFamilyDecode :=
  ⟨decodeWord_encode .nop, decodeWord_encode .cls, decodeWord_encode .ret, decodeWord_encode (.call 0xFFF#12),
    decodeWord_encode (.seI 15 0xFF#8), decodeWord_encode (.seR 15 15), decodeWord_encode (.addI 10 0xBC#8),
    decodeWord_encode (.sub 10 11), decodeWord_encode (.shl 10 11), decodeWord_encode (.drw 5 10 3),
    decodeWord_encode (.skp 15), decodeWord_encode (.ldRegs 15), by decide, by decide, by decide⟩

/-! ## From the word to its instruction and back -/

theorem encode_of_decodeFixed {nnn : Addr} {i : Instr} (h : decodeFixed nnn.toNat = some i) :
    encode i = packNNN 0x0 nnn := by
  unfold decodeFixed at h
  split at h <;> cases h <;> simp_all [encode, packNNN]

theorem encode_of_decodeAlu {n : Nibble} {x y : Reg} {i : Instr} (h : decodeAlu n.val x y = some i) :
    encode i = packXYN 0x8 x y n := by
  unfold decodeAlu at h
  split at h <;> cases h <;> simp_all [encode, packXYN]

theorem encode_of_decodeKey {nn : Byte} {x : Reg} {i : Instr} (h : decodeKey nn.toNat x = some i) :
    encode i = packXNN 0xE x nn := by
  unfold decodeKey at h
  split at h <;> cases h <;> simp_all [encode, packXNN]

theorem encode_of_decodeMisc {nn : Byte} {x : Reg} {i : Instr} (h : decodeMisc nn.toNat x = some i) :
    encode i = packXNN 0xF x nn := by
  unfold decodeMisc at h
  split at h <;> cases h <;> simp_all [encode, packXNN]

theorem fieldNN_toNat (w : Word) : (fieldNN w).toNat = slice w 7 0 := by
  simp [fieldNN, slice]

theorem fieldNNN_toNat (w : Word) : (fieldNNN w).toNat = slice w 11 0 := by
  simp [fieldNNN, slice]

theorem fieldN_eq_zero {w : Word} (h : slice w 3 0 = 0) : fieldN w = 0 :=
  Fin.ext ((slice_n_fields w).symm.trans h)

theorem packNNN_of_fieldOp {w : Word} {op : Nat} (h : fieldOp w = op) : packNNN op (fieldNNN w) = w :=
  h ▸ packNNN_fields w

theorem packXNN_of_fieldOp {w : Word} {op : Nat} (h : fieldOp w = op) : packXNN op (fieldX w) (fieldNN w) = w :=
  h ▸ packXNN_fields w

theorem packXYN_of_fieldOp {w : Word} {op : Nat} (h : fieldOp w = op) :
    packXYN op (fieldX w) (fieldY w) (fieldN w) = w :=
  h ▸ packXYN_fields w

/-- The instruction a word decodes to is encoded as that word: its operands are all of the word's fields. The
cases are the decoder's arms, the arm of `op = k` being number `k + 1`; the last arm decodes nothing. -/
theorem encode_of_decodeWord {w : Word} {i : Instr} (h : decodeWord w = some i) : encode i = w := by
  unfold decodeWord at h
  split at h
  case h_1 hop => exact (encode_of_decodeFixed (fieldNNN_toNat w ▸ h)).trans (packNNN_of_fieldOp hop)
  case h_2 hop | h_3 hop | h_11 hop | h_12 hop => cases h; exact packNNN_of_fieldOp hop
  case h_4 hop | h_5 hop | h_7 hop | h_8 hop | h_13 hop => cases h; exact packXNN_of_fieldOp hop
  case h_6 hop | h_10 hop =>
    obtain ⟨hn, hi⟩ := Option.ite_none_right_eq_some.1 h
    cases hi
    have hpack := packXYN_of_fieldOp hop
    rwa [fieldN_eq_zero hn] at hpack
  case h_9 hop => exact (encode_of_decodeAlu (slice_n_fields w ▸ h)).trans (packXYN_of_fieldOp hop)
  case h_14 hop => cases h; exact packXYN_of_fieldOp hop
  case h_15 hop => exact (encode_of_decodeKey (fieldNN_toNat w ▸ h)).trans (packXNN_of_fieldOp hop)
  case h_16 hop => exact (encode_of_decodeMisc (fieldNN_toNat w ▸ h)).trans (packXNN_of_fieldOp hop)
  case h_17 => cases h

/-- Settles O2, by the value of `op`: every format packs all the fields its instructions take. -/
theorem legalWordIsItsInstructionsEncoding : Obligations.LegalWordIsItsInstructionsEncoding :=
  fun _ _ => encode_of_decodeWord

end Sys2Proof
end

section
/-! SUPPORT. The rows of the opcode table that admit a word (spec/30_encoding.md R54, R55): no two rows overlap,
an instruction's word is admitted by its own row, and a word that some row admits decodes. -/

namespace Sys2Proof

open Laws

/-! ## At most one row admits a word -/

/-- Two rows' patterns agree on the bits both masks fix, as they must when both rows admit one word. -/
def OpcodeRow.Overlaps (r q : OpcodeRow) : Prop := r.pattern &&& q.mask = q.pattern &&& r.mask

theorem OpcodeRow.overlaps_of_admits {r q : OpcodeRow} {w : Word} (hr : r.admits w = true) (hq : q.admits w = true) :
    r.Overlaps q := by
  rw [admits, beq_iff_eq] at hr hq
  rw [Overlaps, ← hr, ← hq, BitVec.and_assoc, BitVec.and_assoc, BitVec.and_comm r.mask]

theorem opcodeTable_pairwise_not_overlaps : opcodeTable.Pairwise fun r q => ¬r.Overlaps q := by
  unfold OpcodeRow.Overlaps
  decide

/-- Of two rows in `rowsOf w`, which both admit `w`, the earlier would overlap the later. -/
theorem rowsOf_eq_singleton {r : OpcodeRow} {w : Word} (hr : r ∈ opcodeTable) (h : r.admits w = true) :
    rowsOf w = [r] := by
  have hmem : r ∈ rowsOf w := List.mem_filter.2 ⟨hr, h⟩
  have hadmits : ∀ q ∈ rowsOf w, q.admits w = true := fun q hq => (List.mem_filter.1 hq).2
  have hpair : (rowsOf w).Pairwise fun p q => ¬p.Overlaps q := opcodeTable_pairwise_not_overlaps.filter _
  match rowsOf w, hmem, hadmits, hpair with
  | [q], hmem, _, _ => rw [List.mem_singleton.1 hmem]
  | p :: q :: _, _, hadmits, hpair =>
    have hover : p.Overlaps q := OpcodeRow.overlaps_of_admits (hadmits p (by simp)) (hadmits q (by simp))
    exact absurd hover (List.rel_of_pairwise_cons hpair (by simp))

/-! ## The row of an instruction's word -/

/-- The laws of the single instructions as one law. -/
theorem encodingRow_statement : ∀ i, EncodingRow.Statement i
  | .nop => EncodingRow.nop
  | .cls => EncodingRow.cls
  | .ret => EncodingRow.ret
  | .jp nnn => EncodingRow.jp nnn
  | .call nnn => EncodingRow.call nnn
  | .seI x nn => EncodingRow.seI x nn
  | .sneI x nn => EncodingRow.sneI x nn
  | .seR x y => EncodingRow.seR x y
  | .ldI x nn => EncodingRow.ldI x nn
  | .addI x nn => EncodingRow.addI x nn
  | .ldR x y => EncodingRow.ldR x y
  | .orR x y => EncodingRow.orR x y
  | .andR x y => EncodingRow.andR x y
  | .xorR x y => EncodingRow.xorR x y
  | .addR x y => EncodingRow.addR x y
  | .sub x y => EncodingRow.sub x y
  | .shr x y => EncodingRow.shr x y
  | .subn x y => EncodingRow.subn x y
  | .shl x y => EncodingRow.shl x y
  | .sneR x y => EncodingRow.sneR x y
  | .ldIdx nnn => EncodingRow.ldIdx nnn
  | .jpV0 nnn => EncodingRow.jpV0 nnn
  | .rnd x nn => EncodingRow.rnd x nn
  | .drw x y n => EncodingRow.drw x y n
  | .skp x => EncodingRow.skp x
  | .sknp x => EncodingRow.sknp x
  | .ldVxDt x => EncodingRow.ldVxDt x
  | .ldVxK x => EncodingRow.ldVxK x
  | .ldDtVx x => EncodingRow.ldDtVx x
  | .ldStVx x => EncodingRow.ldStVx x
  | .addIdx x => EncodingRow.addIdx x
  | .ldF x => EncodingRow.ldF x
  | .ldB x => EncodingRow.ldB x
  | .stRegs x => EncodingRow.stRegs x
  | .ldRegs x => EncodingRow.ldRegs x

theorem rowsOf_encode_labels (i : Instr) : (rowsOf (encode i)).map (·.label) = [i.label] := by
  obtain ⟨r, hrow, hadmits⟩ := encodingRow_statement i
  have hlabel : r.label = i.label := by simpa using List.find?_some hrow
  rw [rowsOf_eq_singleton (List.mem_of_find?_eq_some hrow) hadmits, List.map_singleton, hlabel]

/-! ## An admitted word decodes

Which fields a row fixes, read off its pattern, for each of the table's four masks. -/

section
variable {l : String} {p w : Word}

theorem ofNat_op_nnn (p : Word) : BitVec.ofNat 16 (p.toNat / 4096 * 4096 + p.toNat % 4096) = p := by
  rw [Nat.div_add_mod', BitVec.ofNat_toNat, BitVec.setWidth_eq]

theorem admits_F000_iff (hp : p.toNat % 4096 = 0) :
    OpcodeRow.admits ⟨l, p, 0xF000#16⟩ w = true ↔ fieldOp w = p.toNat / 4096 := by
  have h := admits_F000 l w (op := p.toNat / 4096) (by omega)
  have hpat := ofNat_op_nnn p
  rw [hp, Nat.add_zero] at hpat
  rw [hpat] at h
  rw [h, decide_eq_true_iff]

theorem admits_F00F_iff (hp : p.toNat % 4096 < 16) :
    OpcodeRow.admits ⟨l, p, 0xF00F#16⟩ w = true ↔ fieldOp w = p.toNat / 4096 ∧ slice w 3 0 = p.toNat % 4096 := by
  have h := admits_F00F l w (op := p.toNat / 4096) (by omega) hp
  rw [ofNat_op_nnn] at h
  rw [h, decide_eq_true_iff]

theorem admits_F0FF_iff (hp : p.toNat % 4096 < 256) :
    OpcodeRow.admits ⟨l, p, 0xF0FF#16⟩ w = true ↔ fieldOp w = p.toNat / 4096 ∧ slice w 7 0 = p.toNat % 4096 := by
  have h := admits_F0FF l w (op := p.toNat / 4096) (by omega) hp
  rw [ofNat_op_nnn] at h
  rw [h, decide_eq_true_iff]

theorem admits_FFFF_iff :
    OpcodeRow.admits ⟨l, p, 0xFFFF#16⟩ w = true ↔ fieldOp w = p.toNat / 4096 ∧ slice w 11 0 = p.toNat % 4096 := by
  have h := admits_FFFF l w (op := p.toNat / 4096) (by omega) (Nat.mod_lt p.toNat (by decide))
  rw [ofNat_op_nnn] at h
  rw [h, decide_eq_true_iff]

end

/-- The fields a row fixes are those the decoder selects by. -/
theorem decodeWord_isSome_of_admits {r : OpcodeRow} {w : Word} (hr : r ∈ opcodeTable) (h : r.admits w = true) :
    (decodeWord w).isSome := by
  revert r
  simp only [opcodeTable, List.mem_append, or_imp, forall_and]
  refine ⟨⟨⟨⟨?flow, ?immediate⟩, ?alu⟩, ?index⟩, ?misc⟩
  case flow => simp +contextual [opcodeRowsFlow, admits_FFFF_iff, admits_F000_iff, decodeWord, decodeFixed]
  case immediate => simp +contextual [opcodeRowsImmediate, admits_F000_iff, admits_F00F_iff, decodeWord]
  case alu => simp +contextual [opcodeRowsAlu, admits_F00F_iff, decodeWord, decodeAlu]
  case index => simp +contextual [opcodeRowsIndex, admits_F000_iff, decodeWord]
  case misc => simp +contextual [opcodeRowsMisc, admits_F0FF_iff, decodeWord, decodeKey, decodeMisc]

theorem rowsOf_eq_nil {w : Word} (h : decodeWord w = none) : rowsOf w = [] := by
  refine List.filter_eq_nil_iff.2 fun r hr hadmits => ?_
  have hsome := decodeWord_isSome_of_admits hr hadmits
  rw [h] at hsome
  cases hsome

/-- Settles O3: an illegal word has no row, and a legal word, being its instruction's encoding, has that
instruction's row alone. -/
theorem decoderAgreesWithTheOpcodeTable : Obligations.DecoderAgreesWithTheOpcodeTable := by
  intro w
  cases h : decodeWord w with
  | none => rw [rowsOf_eq_nil h]; rfl
  | some i => rw [← encode_of_decodeWord h, rowsOf_encode_labels]; rfl

end Sys2Proof
end

section
/-! SUPPORT. The words that do not decode (spec/30_encoding.md R56). -/

namespace Sys2Proof

theorem decodeFixed_eq_none (nnn : Nat) : decodeFixed nnn = none ↔ nnn ∉ [0x000, 0x0E0, 0x0EE] := by
  unfold decodeFixed
  split <;> simp_all

theorem decodeAlu_eq_none {n : Nat} (hn : n < 16) (x y : Reg) :
    decodeAlu n x y = none ↔ n ∈ [0x8, 0x9, 0xA, 0xB, 0xC, 0xD, 0xF] := by
  interval_cases n <;> simp [decodeAlu]

theorem decodeKey_eq_none (nn : Nat) (x : Reg) : decodeKey nn x = none ↔ nn ∉ [0x9E, 0xA1] := by
  unfold decodeKey
  split <;> simp_all

theorem decodeMisc_eq_none (nn : Nat) (x : Reg) :
    decodeMisc nn x = none ↔ nn ∉ [0x07, 0x0A, 0x15, 0x18, 0x1E, 0x29, 0x33, 0x55, 0x65] := by
  unfold decodeMisc
  split <;> simp_all

/-- The six groups of R56, by the word's fields. -/
def IllegalFields (w : Word) : Prop :=
  (fieldOp w = 0x0 ∧ slice w 11 0 ∉ [0x000, 0x0E0, 0x0EE]) ∨
  (fieldOp w = 0x5 ∧ slice w 3 0 ≠ 0) ∨
  (fieldOp w = 0x8 ∧ slice w 3 0 ∈ [0x8, 0x9, 0xA, 0xB, 0xC, 0xD, 0xF]) ∨
  (fieldOp w = 0x9 ∧ slice w 3 0 ≠ 0) ∨
  (fieldOp w = 0xE ∧ slice w 7 0 ∉ [0x9E, 0xA1]) ∨
  (fieldOp w = 0xF ∧ slice w 7 0 ∉ [0x07, 0x0A, 0x15, 0x18, 0x1E, 0x29, 0x33, 0x55, 0x65])

/-- By the value of `op`, of which four leave the decision to a decoder of their own. -/
theorem decodeWord_eq_none (w : Word) : decodeWord w = none ↔ IllegalFields w := by
  have hop := fieldOp_lt w
  have hn : slice w 3 0 < 16 := Nat.mod_lt _ (by decide)
  unfold decodeWord IllegalFields
  interval_cases fieldOp w <;>
    simp [decodeFixed_eq_none, decodeAlu_eq_none hn, decodeKey_eq_none, decodeMisc_eq_none]

end Sys2Proof
end

section
/-! SUPPORT. What the instructions can raise (spec/60_exceptions.md R147), and the cycle on a word that does not
decode (R143, R146). -/

namespace Sys2Proof.Machine

variable {s : State} {x y : Reg} {n : Nibble} {nnn : Addr} {f : Fault}

/-! ## The instructions that raise -/

theorem exec_ret_fault : exec .ret s = .fault f ↔ s.sp.val = 0 ∧ f = .stackUnderflow s.instrAddr := by
  simp only [exec, execRet]
  split
  · next h => simp [h]
  · next h => simp [not_not.1 h, eq_comm (a := f)]

theorem exec_call_fault : exec (.call nnn) s = .fault f ↔ s.sp.val = 16 ∧ f = .stackOverflow s.instrAddr := by
  have := s.sp.isLt
  by_cases h : s.sp.val < 16
  · rw [show exec (.call nnn) s = .next ((s.push s.pc h).setPc (zextAddr nnn)) from dif_pos h]
    simp [Nat.ne_of_lt h]
  · rw [show exec (.call nnn) s = raise (.stackOverflow s.instrAddr) from dif_neg h]
    simp [show s.sp.val = 16 by omega, eq_comm (a := f)]

theorem exec_ldB_fault :
    exec (.ldB x) s = .fault f ↔ inBounds s.base 3 = false ∧ f = .memoryFault (max s.base 4096) :=
  storeBytes_fault

theorem exec_stRegs_fault : exec (.stRegs x) s = .fault f ↔
    inBounds s.base (x.val + 1) = false ∧ f = .memoryFault (max s.base 4096) := by
  rw [← regsUpTo_length s x]; exact storeBytes_fault

theorem exec_ldRegs_fault : exec (.ldRegs x) s = .fault f ↔
    inBounds s.base (x.val + 1) = false ∧ f = .memoryFault (max s.base 4096) := by
  simp [exec, execLdRegs, loadBytes_fault]

theorem exec_drw_fault : exec (.drw x y n) s = .fault f ↔
    inBounds s.base n.val = false ∧ f = .memoryFault (max s.base 4096) := by
  simp [exec, execDrw, loadBytes_fault]

theorem withKey_next_fault {b : Byte} {g : Bool → State} :
    (s.withKey b fun pressed => .next (g pressed)) = .fault f ↔ 16 ≤ b.toNat ∧ f = .invalidKeyIndex b.toNat := by
  by_cases h : b.toNat < 16
  · simp [withKey_of_lt s h, h]
  · simp [withKey_of_ge s (Nat.le_of_not_lt h), Nat.le_of_not_lt h, eq_comm (a := f)]

theorem exec_skp_fault :
    exec (.skp x) s = .fault f ↔ 16 ≤ (s.v x).toNat ∧ f = .invalidKeyIndex (s.v x).toNat := by
  simp only [exec, execSkp, withKey_next_fault]

theorem exec_sknp_fault :
    exec (.sknp x) s = .fault f ↔ 16 ≤ (s.v x).toNat ∧ f = .invalidKeyIndex (s.v x).toNat := by
  simp only [exec, execSknp, withKey_next_fault]

theorem exec_ldVxK_ne_fault : exec (.ldVxK x) s ≠ .fault f := by
  simp only [exec, execLdVxK]
  cases s.firstPressed <;> simp

/-! ## IllegalInstruction -/

/-- No instruction raises it: only the decoder does. -/
theorem exec_ne_illegalInstruction (i : Instr) (s : State) (w : Word) :
    exec i s ≠ .fault (.illegalInstruction w) := by
  cases i
  case ret => simp [exec_ret_fault]
  case call => simp [exec_call_fault]
  case ldB => simp [exec_ldB_fault]
  case stRegs => simp [exec_stRegs_fault]
  case ldRegs => simp [exec_ldRegs_fault]
  case drw => simp [exec_drw_fault]
  case skp => simp [exec_skp_fault]
  case sknp => simp [exec_sknp_fault]
  case ldVxK => exact exec_ldVxK_ne_fault
  all_goals nofun

theorem cycleWith_of_decode_none {run : Instr → State → Out} (hf : s.fetchable = true)
    (hd : decodeWord s.fetchWord = none) : cycleWith run s = .fault (.illegalInstruction s.fetchWord) :=
  cycleWith_fault.2 (.inr ⟨hf, .inl ⟨hd, rfl⟩⟩)

theorem step_illegalInstruction {w : Word} (h : step s = .fault (.illegalInstruction w)) :
    s.fetchable = true ∧ w = s.fetchWord ∧ decodeWord s.fetchWord = none := by
  obtain ⟨-, hfault⟩ | ⟨hf, ⟨hd, hfault⟩ | ⟨i, -, hexec⟩⟩ := cycleWith_fault.1 h
  · cases hfault
  · cases hfault
    exact ⟨hf, rfl, hd⟩
  · exact absurd hexec (exec_ne_illegalInstruction i s.advance w)

theorem perform_runCycle_of_fault {b : Byte} (h : runCycle b s = .fault f) : perform (.runCycle b) s = reject s f := by
  rw [perform, h]
  rfl

/-- Settles O4: the list by the value of `op`, the cycle because the decoder raises `IllegalInstruction` whatever
the execute stage is, and the converse because no execute stage raises it. -/
theorem illegalWordsAreExactlyThoseListed : Obligations.IllegalWordsAreExactlyThoseListed := by
  refine ⟨decodeWord_eq_none, fun s hpc hd => ?_, fun s w h => ?_⟩
  · have hf := (fetchable_iff s).2 hpc
    exact ⟨cycleWith_of_decode_none hf hd, fun b => perform_runCycle_of_fault (cycleWith_of_decode_none hf hd)⟩
  · obtain ⟨hf, rfl, hd⟩ := step_illegalInstruction h
    exact ⟨(fetchable_iff s).1 hf, rfl, hd⟩

end Sys2Proof.Machine
end

section
/-! SUPPORT. The cycle (spec/40_cycle.md R65 to R71): when it faults at the fetch, what it runs, and that the random
byte is its only input. -/

namespace Sys2Proof.Machine

variable {s : State}

/-! ## The advance of the fetch stage -/

theorem advance_pc_toNat (hpc : s.pc.toNat ≤ 0xFFE) : s.advance.pc.toNat = s.pc.toNat + 2 := by
  rw [State.advance_pc]
  bv_omega

theorem sameBut_advance (s : State) : SameBut [.pc] s s.advance := sameBut_setPc s _

/-- Settles O7: the cycle goes on with the instruction decoded, and the advance is a write of `pc` alone. -/
theorem stepRunsTheDecodedInstruction : Obligations.StepRunsTheDecodedInstruction := fun s _ hpc hi =>
  ⟨cycleWith_of_decode ((fetchable_iff s).2 hpc) hi, advance_pc_toNat hpc, fun p hp => (sameBut_advance s p hp).keeps⟩

/-! ## A fetch outside memory -/

theorem fetchable_eq_false (h : 0xFFF ≤ s.pc.toNat) : s.fetchable = false := by
  rw [← Bool.not_eq_true, fetchable_iff]
  omega

theorem cycleWith_of_not_fetchable {run : Instr → State → Out} (h : s.fetchable = false) :
    cycleWith run s = .fault (.memoryFault (max s.pc.toNat 4096)) :=
  guardAccess_out h _

/-- Settles O8: the fetch faults before anything is executed, so whatever the execute stage is. -/
theorem fetchOutsideMemoryFaults : Obligations.FetchOutsideMemoryFaults := fun _ hpc =>
  have hf := fetchable_eq_false hpc
  ⟨cycleWith_of_not_fetchable hf, fun _ => perform_runCycle_of_fault (cycleWith_of_not_fetchable hf)⟩

/-! ## The random byte as an input -/

/-- A cycle depends on its execute stage only at the advanced state. -/
theorem cycleWith_congr {run run' : Instr → State → Out} (h : ∀ i, run i s.advance = run' i s.advance) :
    cycleWith run s = cycleWith run' s := by
  simp only [cycleWith, h]

theorem execWithInput_drawnByte (i : Instr) (s : State) : execWithInput (Config.rnd s.draws) i s = exec i s := by
  cases i <;> rfl

/-- Settles O10: the fetch leaves the count of draws, so the byte drawn is the one supplied. -/
theorem stepIsRunCycleAtTheDrawnByte : Obligations.StepIsRunCycleAtTheDrawnByte := fun s =>
  cycleWith_congr fun i => (execWithInput_drawnByte i s.advance).symm

end Sys2Proof.Machine
end

section
/-! SUPPORT. When an instruction completes, and what it raises when it does not (spec/40_cycle.md R69,
spec/60_exceptions.md R140, R145, R147). -/

namespace Sys2Proof.Machine

variable {s : State}

/-! ## Completion -/

/-- The instructions with a condition one at a time; the others always answer a next state. -/
theorem exec_next_iff_completes (i : Instr) (s : State) : (∃ t, exec i s = .next t) ↔ completes i s := by
  cases i with
  | ret => simp [exec_ret_next, completes, Nat.pos_iff_ne_zero]
  | call => simp [exec_call_next, completes]
  | skp => simp [exec_skp_next, completes]
  | sknp => simp [exec_sknp_next, completes]
  | drw => simp [exec_drw_next, completes, inBounds_iff]
  | ldB | stRegs | ldRegs =>
    simp only [exec_ldB_next, exec_stRegs_next, exec_ldRegs_next, completes, inBounds_iff, exists_and_left, exists_eq,
      and_true]
    omega
  | ldVxK =>
    refine ⟨fun _ => trivial, fun _ => ?_⟩
    cases hk : s.firstPressed with
    | none => exact ⟨_, exec_ldVxK_next.2 (.inr ⟨hk, rfl⟩)⟩
    | some k => exact ⟨_, exec_ldVxK_next.2 (.inl ⟨k, hk, rfl⟩)⟩
  | _ => exact ⟨fun _ => trivial, fun _ => ⟨_, rfl⟩⟩

theorem proceeds_iff (s : State) :
    Proceeds s ↔ s.pc.toNat ≤ 0xFFE ∧ ∃ i, decodeWord s.fetchWord = some i ∧ completes i s.advance := by
  simp only [Proceeds, step_next, fetchable_iff, ← exec_next_iff_completes]
  constructor
  · rintro ⟨t, hpc, i, hi, h⟩
    exact ⟨hpc, i, hi, t, h⟩
  · rintro ⟨hpc, i, hi, t, h⟩
    exact ⟨t, hpc, i, hi, h⟩

/-- Settles O12: an instruction by its own condition, a cycle by the stages it goes through. -/
theorem instructionsCompleteExactlyWhenTheirConditionsHold :
    Obligations.InstructionsCompleteExactlyWhenTheirConditionsHold :=
  ⟨exec_next_iff_completes, proceeds_iff⟩

/-! ## Faults -/

theorem inBounds_eq_false_iff (base count : Nat) : inBounds base count = false ↔ 0 < count ∧ 4096 < base + count := by
  rw [← Bool.not_eq_true, inBounds_iff]
  omega

theorem loadBytes_refused {base n : Nat} {k : List Byte → Out} {r : Refusal} :
    s.loadBytes base n k = .refused r ↔ inBounds base n = true ∧ k (s.mem.readBytes base n) = .refused r := by
  simp [State.loadBytes, guardAccess_refused]

theorem withKey_next_ne_refused {b : Byte} {g : Bool → State} {r : Refusal} :
    (s.withKey b fun pressed => .next (g pressed)) ≠ .refused r := by
  unfold State.withKey
  split <;> simp

/-- No instruction is refused: each shared operation completes or raises. -/
theorem exec_ne_refused (i : Instr) (s : State) (r : Refusal) : exec i s ≠ .refused r := by
  cases i with
  | ret => simp only [exec, execRet]; split <;> simp
  | call => simp only [exec, execCall]; split <;> simp
  | drw => simp [exec, execDrw, loadBytes_refused]
  | ldRegs => simp [exec, execLdRegs, loadBytes_refused]
  | ldB | stRegs => exact storeBytes_ne_refused
  | skp => simp only [exec, execSkp]; exact withKey_next_ne_refused
  | sknp => simp only [exec, execSknp]; exact withKey_next_ne_refused
  | ldVxK => simp only [exec, execLdVxK]; split <;> simp
  | _ => nofun

/-- Settles O13: the instructions that raise one at a time, each by its fault rule. -/
theorem onlyTheNamedInstructionsRaise : Obligations.OnlyTheNamedInstructionsRaise := by
  refine fun i s => ⟨exec_ne_refused i s, fun f h => ?_⟩
  cases i with
  | ret =>
    obtain ⟨hsp, rfl⟩ := exec_ret_fault.1 h
    exact .inl ⟨rfl, Fin.ext hsp, rfl⟩
  | call nnn =>
    obtain ⟨hsp, rfl⟩ := exec_call_fault.1 h
    exact .inr (.inl ⟨⟨nnn, rfl⟩, Fin.ext hsp, rfl⟩)
  | drw x y n =>
    obtain ⟨hout, hf⟩ := exec_drw_fault.1 h
    obtain ⟨hn, hout⟩ := (inBounds_eq_false_iff _ _).1 hout
    exact .inr (.inr (.inl ⟨⟨x, y, n, rfl, hn, by omega⟩, hf⟩))
  | ldB x =>
    obtain ⟨hout, hf⟩ := exec_ldB_fault.1 h
    obtain ⟨-, hout⟩ := (inBounds_eq_false_iff _ _).1 hout
    exact .inr (.inr (.inr (.inl ⟨⟨x, rfl⟩, by omega, hf⟩)))
  | stRegs x =>
    obtain ⟨hout, hf⟩ := exec_stRegs_fault.1 h
    obtain ⟨-, hout⟩ := (inBounds_eq_false_iff _ _).1 hout
    exact .inr (.inr (.inr (.inr (.inl ⟨⟨x, .inl rfl, by omega⟩, hf⟩))))
  | ldRegs x =>
    obtain ⟨hout, hf⟩ := exec_ldRegs_fault.1 h
    obtain ⟨-, hout⟩ := (inBounds_eq_false_iff _ _).1 hout
    exact .inr (.inr (.inr (.inr (.inl ⟨⟨x, .inr rfl, by omega⟩, hf⟩))))
  | skp x =>
    obtain ⟨hkey, hf⟩ := exec_skp_fault.1 h
    exact .inr (.inr (.inr (.inr (.inr ⟨x, .inl rfl, hkey, hf⟩))))
  | sknp x =>
    obtain ⟨hkey, hf⟩ := exec_sknp_fault.1 h
    exact .inr (.inr (.inr (.inr (.inr ⟨x, .inr rfl, hkey, hf⟩))))
  | ldVxK => exact absurd h exec_ldVxK_ne_fault
  | _ => nomatch h

end Sys2Proof.Machine
end

section
/-! SUPPORT. The cycles that change nothing (spec/40_cycle.md R73, spec/46_keys_timers.md R127; log entry 20). -/

namespace Sys2Proof.Machine

variable {s t : State} {i : Instr}

/-! ## The advance and its undoing -/

theorem advance_rewind (s : State) : s.advance.rewind = s := by
  ext1
  case pc => exact BitVec.add_sub_cancel s.pc 2
  all_goals rfl

theorem advance_setPc_eq_self {w : Word} : s.advance.setPc w = s ↔ w = s.pc :=
  ⟨fun h => congrArg State.pc h, fun h => by subst h; rfl⟩

/-- An instruction's own address is neither that of the next one nor that of the one after it. -/
theorem pc_ne_advance_pc (s : State) : ¬(s.pc = s.advance.pc ∨ s.pc = s.advance.pc + 2) := by
  rw [State.advance_pc]
  bv_omega

/-! ## The instructions that undo the advance -/

theorem exec_ldVxK_advance_self {x : Reg} : exec (.ldVxK x) s.advance = .next s ↔ ∀ k, s.key k = false := by
  rw [exec_ldVxK_next, advance_rewind, firstPressed_none]
  constructor
  · rintro (⟨k, -, h⟩ | ⟨hk, -⟩)
    · have hpc := congrArg State.pc h
      exact absurd (.inl hpc) (pc_ne_advance_pc s)
    · exact hk
  · exact fun hk => .inr ⟨hk, rfl⟩

theorem exec_jp_advance_self {nnn : Addr} : exec (.jp nnn) s.advance = .next s ↔ nnn.toNat = s.pc.toNat := by
  rw [exec_jp, Host.Outcome.next.injEq, advance_setPc_eq_self, ← BitVec.toNat_inj, zextAddr_toNat]

theorem exec_jpV0_advance_self {nnn : Addr} :
    exec (.jpV0 nnn) s.advance = .next s ↔ nnn.toNat + (s.v 0).toNat = s.pc.toNat := by
  rw [exec_jpV0, Host.Outcome.next.injEq, advance_setPc_eq_self, ← BitVec.toNat_inj, offsetTarget_toNat]
  rfl

/-- Calls and returns move `sp`. -/
theorem exec_stack_sp_ne (h : exec i s = .next t) (hi : i = .ret ∨ ∃ nnn, i = .call nnn) : t.sp ≠ s.sp := by
  obtain rfl | ⟨nnn, rfl⟩ := hi
  · obtain ⟨hsp, rfl⟩ := exec_ret_next.1 h
    exact Fin.ne_of_val_ne (by simp; omega)
  · obtain ⟨hsp, rfl⟩ := exec_call_next.1 h
    exact Fin.ne_of_val_ne (by simp)

/-- Only a key wait and the two jumps can take the advance back: a skip goes further on, a call or a return moves `sp`,
and no other instruction writes `pc`. -/
theorem exec_advance_self_cases (h : exec i s.advance = .next s) :
    (∃ x, i = .ldVxK x) ∨ (∃ nnn, i = .jp nnn) ∨ ∃ nnn, i = .jpV0 nnn := by
  cases i with
  | ldVxK x => exact .inl ⟨x, rfl⟩
  | jp nnn => exact .inr (.inl ⟨nnn, rfl⟩)
  | jpV0 nnn => exact .inr (.inr ⟨nnn, rfl⟩)
  | ret | call => exact (exec_stack_sp_ne h (by simp) rfl).elim
  | seI | sneI | seR | sneR | skp | sknp => exact absurd (exec_skip_pc h (by simp)) (pc_ne_advance_pc s)
  | _ => exact absurd (.inl (exec_sameBut_writes h .pc (by simp [writes]))) (pc_ne_advance_pc s)

/-- Settles O23: the instructions that take the advance back, each under its condition. -/
theorem cycleChangesNothingOnlyInAWaitOrASelfJump : Obligations.CycleChangesNothingOnlyInAWaitOrASelfJump := by
  intro s
  constructor
  · intro h
    obtain ⟨hf, i, hi, hexec⟩ := step_next.1 h
    have hpc := (fetchable_iff s).1 hf
    obtain ⟨x, rfl⟩ | ⟨nnn, rfl⟩ | ⟨nnn, rfl⟩ := exec_advance_self_cases hexec
    · exact .inl ⟨hf, ⟨x, hi⟩, exec_ldVxK_advance_self.1 hexec⟩
    · exact .inr (.inl ⟨hpc, nnn, hi, exec_jp_advance_self.1 hexec⟩)
    · exact .inr (.inr ⟨hpc, nnn, hi, exec_jpV0_advance_self.1 hexec⟩)
  · rintro (⟨hf, ⟨x, hi⟩, hkeys⟩ | ⟨hpc, nnn, hi, hself⟩ | ⟨hpc, nnn, hi, hself⟩)
    · exact step_next.2 ⟨hf, _, hi, exec_ldVxK_advance_self.2 hkeys⟩
    · exact step_next.2 ⟨(fetchable_iff s).2 hpc, _, hi, exec_jp_advance_self.2 hself⟩
    · exact step_next.2 ⟨(fetchable_iff s).2 hpc, _, hi, exec_jpV0_advance_self.2 hself⟩

end Sys2Proof.Machine
end

section
/-! SUPPORT. No-op, jumps, call and return (spec/41_flow.md R76 to R81). -/

namespace Sys2Proof.Machine

variable {s t : State} {i : Instr}

/-- The frame of an instruction, for any list that covers what it writes. -/
theorem exec_keepsAllBut {ps : List Part} (h : exec i s = .next t) (hps : writes i ⊆ ps) : KeepsAllBut ps s t :=
  fun p hp => exec_keepsAllBut_writes h p fun hw => hp (hps hw)

/-! ## No-op and jumps -/

/-- Settles O32: the cycle is the advance alone, since `exec` gives back the advanced state. -/
theorem nopOnlyAdvances : Obligations.NopOnlyAdvances := by
  refine ⟨decodeWord_encode .nop, exec_nop, fun s hpc hw => ?_⟩
  have hdecode : decodeWord s.fetchWord = some .nop := hw ▸ decodeWord_encode .nop
  obtain ⟨hstep, hadv, hframe⟩ := stepRunsTheDecodedInstruction s .nop hpc hdecode
  exact ⟨s.advance, hstep, hadv, hframe⟩

/-- Settles O33; the target 0xFFF is the first address a fetch cannot start from (R66). -/
theorem jumpSetsThePc : Obligations.JumpSetsThePc := by
  refine fun nnn s => ⟨decodeWord_encode (.jp nnn), _, exec_jp s nnn, zextAddr_toNat nnn,
    exec_keepsAllBut (exec_jp s nnn) (List.Subset.refl _), ?_⟩
  rintro rfl
  exact (fetchOutsideMemoryFaults (s.setPc (zextAddr 0xFFF)) (Nat.le_refl 0xFFF)).1

/-- Settles O34: the 16-bit sum of the target does not overflow. -/
theorem offsetJumpAddsRegisterZero : Obligations.OffsetJumpAddsRegisterZero := fun nnn s =>
  ⟨decodeWord_encode (.jpV0 nnn), _, exec_jpV0 s nnn, offsetTarget_toNat s nnn,
    exec_keepsAllBut (exec_jpV0 s nnn) (List.Subset.refl _)⟩

/-! ## Call and return -/

/-- The newest entry is the one just below `sp` (R15). -/
theorem top_eq_entry (h : s.sp.val ≠ 0) {k : Fin 16} (hk : k.val + 1 = s.sp.val) : s.top h = s.entry k := by
  simp only [State.top, State.entry, ← hk, Nat.add_sub_cancel]

/-- Settles O35, from the push and its frame. -/
theorem callPushesTheReturnAddress : Obligations.CallPushesTheReturnAddress := by
  refine fun nnn s => ⟨decodeWord_encode (.call nnn), fun hsp => ?_⟩
  have h : exec (.call nnn) s = .next ((s.push s.pc hsp).setPc (zextAddr nnn)) := exec_call_next.2 ⟨hsp, rfl⟩
  exact ⟨_, h, zextAddr_toNat nnn, State.push_sp s s.pc hsp, State.push_entry s s.pc hsp,
    exec_keepsAllBut h (by simp [writes])⟩

/-- Settles O36, from the pop and its frame. -/
theorem returnPopsTheNewestEntry : Obligations.ReturnPopsTheNewestEntry := by
  refine ⟨decodeWord_encode .ret, fun s hsp => ?_⟩
  have h : exec .ret s = .next (s.drop.setPc (s.top hsp.ne')) := exec_ret_next.2 ⟨hsp.ne', rfl⟩
  exact ⟨_, h, Nat.sub_add_cancel hsp, fun k hk => top_eq_entry hsp.ne' hk, State.drop_entry s,
    exec_keepsAllBut h (by simp [writes])⟩

/-- Settles O38: the newest entry the return finds, at the depth before the call, is the one the call pushed. -/
theorem returnUndoesTheCall : Obligations.ReturnUndoesTheCall := by
  intro nnn s t u hcall husp hentries
  obtain ⟨hsp, rfl⟩ := exec_call_next.1 hcall
  have hdepth : u.sp.val = s.sp.val + 1 := congrArg Fin.val husp
  have hpushed : u.entry ⟨s.sp.val, hsp⟩ = s.pc := by
    rw [hentries _ (Nat.lt_succ_self _), State.setPc_entry, State.push_entry, if_pos rfl]
  obtain ⟨v, hret, hvsp, hvpc, -, -⟩ := returnPopsTheNewestEntry.2 u (by omega)
  exact ⟨v, hret, (hvpc ⟨s.sp.val, hsp⟩ hdepth.symm).trans hpushed, Fin.ext (by omega)⟩

end Sys2Proof.Machine
end

section
/-! SUPPORT. The skips on a byte and on a register (spec/42_skips.md R85 to R89). -/

namespace Sys2Proof.Machine

variable {s : State} {i : Instr} {c : Bool} {p : Prop} [Decidable p]

/-- The common rule of the skips (R85), for a test `c` that decides the condition `p`. -/
theorem exec_skip_spec (hexec : exec i s = .next (s.skipIf c)) (hc : c = true ↔ p) :
    ∃ t, exec i s = .next t ∧ t.pc = (if p then s.pc + 2 else s.pc) ∧ KeepsAllBut [.pc] s t :=
  ⟨_, hexec, (State.skipIf_pc s c).trans (by simp only [hc]), fun q hq => (sameBut_skipIf s c q hq).keeps⟩

/-- R59: a register skip needs its trailing nibble to be 0. -/
theorem decodeWord_packXYN_skip_eq_none {op : Nat} (hop : op = 0x5 ∨ op = 0x9) (x y : Reg) {n : Nibble} (hn : n ≠ 0) :
    decodeWord (packXYN op x y n) = none := by
  have hlt : op < 16 := by omega
  have hslice : slice (packXYN op x y n) 3 0 ≠ 0 := slice_n_packXYN hlt x y n ▸ Fin.val_ne_zero_iff.2 hn
  have hfield := fieldOp_packXYN hlt x y n
  rw [decodeWord_eq_none]
  obtain rfl | rfl := hop
  · exact .inr (.inl ⟨hfield, hslice⟩)
  · exact .inr (.inr (.inr (.inl ⟨hfield, hslice⟩)))

/-- Settles O39, from the common rule of the skips. -/
theorem immediateSkipsCompareWithTheByte : Obligations.ImmediateSkipsCompareWithTheByte := fun x nn s =>
  ⟨decodeWord_encode (.seI x nn), decodeWord_encode (.sneI x nn),
    exec_skip_spec (exec_seI s x nn) beq_iff_eq, exec_skip_spec (exec_sneI s x nn) bne_iff_ne⟩

/-- Settles O40, from the common rule of the skips and the illegal words R59 names. -/
theorem registerSkipsCompareTwoRegisters : Obligations.RegisterSkipsCompareTwoRegisters := fun x y s =>
  ⟨decodeWord_encode (.seR x y), decodeWord_encode (.sneR x y),
    fun _ hn => ⟨decodeWord_packXYN_skip_eq_none (.inl rfl) x y hn, decodeWord_packXYN_skip_eq_none (.inr rfl) x y hn⟩,
    exec_skip_spec (exec_seR s x y) beq_iff_eq, exec_skip_spec (exec_sneR s x y) bne_iff_ne⟩

end Sys2Proof.Machine
end

section
/-! SUPPORT. Loads, arithmetic, logic, shifts and the random byte (spec/43_alu.md R90 to R103). -/

namespace Sys2Proof.Machine

variable {s t : State} {i : Instr} {x : Reg} {ps : List Part}

/-! ## The frame of register writes -/

theorem SameBut.keepsAllBut (h : SameBut ps s t) : KeepsAllBut ps s t := fun p hp => (h p hp).keeps

theorem setV_keepsRegsBut (s : State) (x : Reg) (b : Byte) : KeepsRegsBut [x] s (s.setV x b) := by
  intro r hr
  rw [State.setV_v, if_neg fun h => hr (List.mem_singleton.2 h)]

/-- Two registers written in either order, the second value free to depend on the first write. -/
theorem setV_setV_frame (s : State) (j k : Reg) (a b : Byte) {is : List Reg} (hj : j ∈ is) (hk : k ∈ is) :
    KeepsRegsBut is s ((s.setV j a).setV k b) ∧ KeepsAllBut [.regs] s ((s.setV j a).setV k b) := by
  refine ⟨fun r hr => ?_, SameBut.keepsAllBut ?_⟩
  · have hrj : r ≠ j := fun h => hr (h ▸ hj)
    have hrk : r ≠ k := fun h => hr (h ▸ hk)
    rw [State.setV_v, if_neg hrk, State.setV_v, if_neg hrj]
  · exact ((sameBut_setV s j a).trans (sameBut_setV _ k b)).mono (by simp)

/-! ## The common rules of the three kinds of result -/

/-- One register written, no flag. -/
theorem exec_setV_spec {b : Byte} (h : exec i s = .next (s.setV x b)) :
    ∃ t, exec i s = .next t ∧ t.v x = b ∧ KeepsRegsBut [x] s t ∧ KeepsAllBut [.regs] s t :=
  ⟨_, h, (State.setV_v s x x b).trans (if_pos rfl), setV_keepsRegsBut s x b, (sameBut_setV s x b).keepsAllBut⟩

/-- Result, then flag: with `x = 15` the flag stays (R102). -/
theorem exec_resultThenFlag_spec {b : Byte} {c : Bool} (h : exec i s = .next ((s.setV x b).setFlag c)) :
    ∃ t, exec i s = .next t ∧ (x ≠ 15 → t.v x = b) ∧ t.v 15 = b2n c ∧
      KeepsRegsBut [x, 15] s t ∧ KeepsAllBut [.regs] s t :=
  ⟨_, h, fun hx => by rw [State.setFlag_v, if_neg hx, State.setV_v, if_pos rfl],
    (State.setFlag_v _ c 15).trans (if_pos rfl), setV_setV_frame s x 15 b _ (by simp) (by simp)⟩

/-- Flag, then the operation `f` in place: with `x = 15` it is the flag that `f` is applied to (R102, D9). -/
theorem exec_flagThenInPlace_spec {b : Byte} {f : Byte → Byte}
    (h : exec i s = .next ((s.setV 15 b).setV x (f ((s.setV 15 b).v x)))) :
    ∃ t, exec i s = .next t ∧ (x ≠ 15 → t.v x = f (s.v x) ∧ t.v 15 = b) ∧ (x = 15 → t.v 15 = f b) ∧
      KeepsRegsBut [x, 15] s t ∧ KeepsAllBut [.regs] s t := by
  refine ⟨_, h, fun hx => ?_, ?_, setV_setV_frame s 15 x b _ (by simp) (by simp)⟩
  · simp [hx, Ne.symm hx]
  · rintro rfl
    simp

/-! ## Loads, addition of a byte, logic -/

/-- Settles O41, from the rule of one register written. -/
theorem loadsAndAddImmediateWriteOneRegister : Obligations.LoadsAndAddImmediateWriteOneRegister := by
  refine fun x y nn s => ⟨decodeWord_encode (.ldI x nn), decodeWord_encode (.addI x nn), decodeWord_encode (.ldR x y),
    exec_setV_spec (exec_ldI s x nn), ?_, exec_setV_spec (exec_ldR s x y)⟩
  obtain ⟨t, ht, hv, hframe⟩ := exec_setV_spec (exec_addI s x nn)
  exact ⟨t, ht, hv ▸ sumByte_toNat (s.v x) nn, hframe⟩

/-- Settles O42, from the rule of one register written. -/
theorem logicWritesOneRegisterAndNoFlag : Obligations.LogicWritesOneRegisterAndNoFlag := fun x y s =>
  ⟨decodeWord_encode (.orR x y), decodeWord_encode (.andR x y), decodeWord_encode (.xorR x y),
    exec_setV_spec (exec_orR s x y), exec_setV_spec (exec_andR s x y), exec_setV_spec (exec_xorR s x y)⟩

/-! ## Addition and subtraction with a flag -/

theorem b2n_decide (p : Prop) [Decidable p] : b2n (decide p) = if p then 1 else 0 := by
  simp only [b2n, decide_eq_true_eq]

/-- Settles O43: the carry is the flag written after the sum. -/
theorem addSetsTheCarry : Obligations.AddSetsTheCarry := by
  refine fun x y s => ⟨decodeWord_encode (.addR x y), ?_⟩
  obtain ⟨t, ht, hv, hflag, hframe⟩ := exec_resultThenFlag_spec (exec_addR s x y)
  exact ⟨t, ht, fun hx => hv hx ▸ sumByte_toNat _ _, hflag.trans (b2n_decide _), hframe⟩

/-- A difference, then its flag: both subtractions, by the order of the operands. -/
theorem exec_difference_spec {a b : Byte} (h : exec i s = .next ((s.setV x (diffByte a b)).setFlag (noBorrow a b))) :
    ∃ t, exec i s = .next t ∧ (x ≠ 15 → ((t.v x).toNat : Int) = ((a.toNat : Int) - b.toNat) % 256) ∧
      t.v 15 = (if b.toNat ≤ a.toNat then 1 else 0) ∧ KeepsRegsBut [x, 15] s t ∧ KeepsAllBut [.regs] s t := by
  obtain ⟨t, ht, hv, hflag, hframe⟩ := exec_resultThenFlag_spec h
  exact ⟨t, ht, fun hx => hv hx ▸ diffByte_toInt a b, hflag.trans (b2n_decide _), hframe⟩

/-- Settles O44, from the common rule of the two subtractions. -/
theorem subtractionsSetNoBorrow : Obligations.SubtractionsSetNoBorrow := fun x y s =>
  ⟨decodeWord_encode (.sub x y), decodeWord_encode (.subn x y),
    exec_difference_spec (exec_sub s x y), exec_difference_spec (exec_subn s x y)⟩

/-! ## Shifts -/

theorem shiftRight_lowBit (a : Byte) : shiftRight (lowBit a) = 0 := by
  apply BitVec.eq_of_toNat_eq
  rw [shiftRight_toNat, lowBit_toNat, Nat.div_eq_of_lt (Nat.mod_lt _ Nat.two_pos)]
  rfl

theorem shiftLeft_highBit_toNat (a : Byte) : (shiftLeft (highBit a)).toNat = 2 * (a.toNat / 128) := by
  have := a.isLt
  rw [shiftLeft_toNat, highBit_toNat]
  omega

/-- Settles O45: the flag is written first, and with `x = 15` it is the flag that is shifted. -/
theorem shiftsMoveOneBitIntoTheFlag : Obligations.ShiftsMoveOneBitIntoTheFlag := by
  refine fun x y s => ⟨decodeWord_encode (.shr x y), decodeWord_encode (.shl x y), ?_, ?_⟩
  · obtain ⟨t, ht, hne, heq, hframe⟩ := exec_flagThenInPlace_spec (exec_shr s x y)
    refine ⟨t, ht, fun hx => ?_, fun hx => (heq hx).trans (shiftRight_lowBit _), hframe⟩
    obtain ⟨hv, hflag⟩ := hne hx
    exact ⟨hv ▸ shiftRight_toNat _, hflag ▸ lowBit_toNat _⟩
  · obtain ⟨t, ht, hne, heq, hframe⟩ := exec_flagThenInPlace_spec (exec_shl s x y)
    refine ⟨t, ht, fun hx => ?_, fun hx => heq hx ▸ shiftLeft_highBit_toNat _, hframe⟩
    obtain ⟨hv, hflag⟩ := hne hx
    exact ⟨hv ▸ shiftLeft_toNat _, hflag ▸ highBit_toNat _⟩

/-! ## The flag laws -/

theorem toNat_of_eq_ite {f : Byte} {p : Prop} [Decidable p] (hf : f = if p then 1 else 0) :
    f.toNat = if p then 1 else 0 := by
  rw [hf]
  split <;> rfl

/-- A sum modulo 256 and its carry are the exact sum (R103). -/
theorem carry_sum_exact {a b r f : Byte} (hr : r.toNat = (a.toNat + b.toNat) % 256)
    (hf : f = if 256 ≤ a.toNat + b.toNat then 1 else 0) : 256 * f.toNat + r.toNat = a.toNat + b.toNat := by
  have hflag := toNat_of_eq_ite hf
  have := a.isLt
  have := b.isLt
  split at hflag <;> omega

/-- A difference modulo 256 and its flag are the exact difference (R103). -/
theorem noBorrow_difference_exact {a b r f : Byte} (hr : (r.toNat : Int) = ((a.toNat : Int) - b.toNat) % 256)
    (hf : f = if b.toNat ≤ a.toNat then 1 else 0) : (r.toNat : Int) - 256 * (1 - f.toNat) = a.toNat - b.toNat := by
  have hflag := toNat_of_eq_ite hf
  have := a.isLt
  have := b.isLt
  split at hflag <;> omega

/-- An instruction has one next state: what is shown of some next state holds of any. -/
theorem of_exec_next {P : State → Prop} (hex : ∃ t, exec i s = .next t ∧ P t) (h : exec i s = .next t) : P t := by
  obtain ⟨u, hu, hP⟩ := hex
  cases h.symm.trans hu
  exact hP

/-- Settles O46, from the rules of the five instructions. -/
theorem flagAndResultGiveTheExactValue : Obligations.FlagAndResultGiveTheExactValue := by
  intro x y s t hx
  obtain ⟨-, hadd⟩ := addSetsTheCarry x y s
  obtain ⟨-, -, hsub, hsubn⟩ := subtractionsSetNoBorrow x y s
  obtain ⟨-, -, hshr, hshl⟩ := shiftsMoveOneBitIntoTheFlag x y s
  refine ⟨fun h => ?_, fun h => ?_, fun h => ?_, fun h => ?_, fun h => ?_⟩
  · obtain ⟨hv, hflag, -⟩ := of_exec_next hadd h
    exact carry_sum_exact (hv hx) hflag
  · obtain ⟨hv, hflag, -⟩ := of_exec_next hsub h
    exact noBorrow_difference_exact (hv hx) hflag
  · obtain ⟨hv, hflag, -⟩ := of_exec_next hsubn h
    exact noBorrow_difference_exact (hv hx) hflag
  · obtain ⟨hvals, -⟩ := of_exec_next hshr h
    obtain ⟨hv, hflag⟩ := hvals hx
    omega
  · obtain ⟨hvals, -⟩ := of_exec_next hshl h
    obtain ⟨hv, hflag⟩ := hvals hx
    have := (s.v x).isLt
    omega

/-! ## The random byte -/

/-- A byte masked has no bit outside the mask. -/
theorem masked_and_not_mask (b nn : Byte) : b &&& nn &&& ~~~nn = 0 := by
  rw [BitVec.and_assoc, BitVec.and_not_self]
  exact BitVec.and_zero

/-- `Cxnn` for a given byte. -/
theorem execRndWith_spec (b : Byte) (x : Reg) (nn : Byte) (s : State) :
    ∃ t, execRndWith b x nn s = .next t ∧ t.v x = b &&& nn ∧ t.draws = s.draws + 1 ∧ t.pc = s.pc ∧
      KeepsRegsBut [x] s t ∧ SameBut [.regs, .draws] s t :=
  ⟨_, rfl, (State.setV_v s x x _).trans (if_pos rfl), rfl, rfl, setV_keepsRegsBut s x _,
    (sameBut_setV s x _).trans (sameBut_countDraw _)⟩

/-- Settles O47, from the rule for a given byte, which in a cycle starts at the advanced state. -/
theorem randomByteIsMasked : Obligations.RandomByteIsMasked := by
  refine fun x nn s => ⟨decodeWord_encode (.rnd x nn), ?_, fun b hpc hi => ?_⟩
  · obtain ⟨t, ht, hv, hdraws, -, hregs, hsame⟩ := execRndWith_spec (Config.rnd s.draws) x nn s
    exact ⟨t, ht, hv, hv ▸ masked_and_not_mask _ nn, hdraws, hregs, hsame.keepsAllBut⟩
  · obtain ⟨t, ht, hv, -, htpc, hregs, hsame⟩ := execRndWith_spec b x nn s.advance
    have hcycle : runCycle b s = execRndWith b x nn s.advance := cycleWith_of_decode ((fetchable_iff s).2 hpc) hi
    exact ⟨t, hcycle.trans ht, hv, htpc ▸ advance_pc_toNat hpc, hregs,
      (((sameBut_advance s).trans hsame).mono (by simp)).keepsAllBut⟩

end Sys2Proof.Machine
end

section
/-! SUPPORT. Index register, decimal digits, register store and load (spec/44_index_memory.md R106 to R112). -/

namespace Sys2Proof.Machine

variable {s t : State} {i : Instr} {x : Reg}

/-! ## The index register -/

/-- One word written to the index register, no flag. -/
theorem exec_setIdx_spec {w : Word} {n : Nat} (h : exec i s = .next (s.setIdx w)) (hw : w.toNat = n) :
    ∃ t, exec i s = .next t ∧ t.idx.toNat = n ∧ KeepsAllBut [.idx] s t :=
  ⟨_, h, hw, (sameBut_setIdx s w).keepsAllBut⟩

/-- Settles O48, from the rule of the index register written. -/
theorem indexInstructionsWriteOnlyTheIndex : Obligations.IndexInstructionsWriteOnlyTheIndex := fun x nnn s =>
  ⟨decodeWord_encode (.ldIdx nnn), decodeWord_encode (.addIdx x), decodeWord_encode (.ldF x),
    exec_setIdx_spec (exec_ldIdx s nnn) (zextAddr_toNat nnn), exec_setIdx_spec (exec_addIdx s x) (sumIdx_toNat _ _),
    exec_setIdx_spec (exec_ldF s x) (glyphAddr_toNat _)⟩

/-! ## The decimal digits -/

/-- The digits of a byte fit a byte, so storing them as bytes loses nothing (R109). -/
theorem bcdDigits_toNat (b : Byte) :
    ((bcdDigits b).getD 0 0).toNat = b.toNat / 100 ∧ ((bcdDigits b).getD 1 0).toNat = b.toNat / 10 % 10 ∧
      ((bcdDigits b).getD 2 0).toNat = b.toNat % 10 := by
  have := b.isLt
  refine ⟨?_, ?_, ?_⟩ <;> simp only [bcdDigits, List.getD_cons_zero, List.getD_cons_succ, BitVec.toNat_ofNat] <;> omega

/-- `Fx33` leaves digit `k` of `V[x]` at `I + k`. -/
theorem exec_ldB_byte (hwf : s.mem.wf) (h : exec (.ldB x) s = .next t) {k : Nat} (hk : k < 3) :
    t.byte (s.base + k) = (bcdDigits (s.v x)).getD k 0 := by
  obtain ⟨hin, rfl⟩ := exec_ldB_next.1 h
  exact Memory.read_writeBytes_add hwf (((inBounds_iff _ _).1 hin).resolve_left (by omega)) hk

/-- Settles O49: the bytes stored are the digits, and the frame of the store is that of O20. -/
theorem decimalDigitsAreStored : Obligations.DecimalDigitsAreStored := by
  refine fun x s => ⟨decodeWord_encode (.ldB x), fun hwf hI => ?_⟩
  obtain ⟨t, ht⟩ := (exec_next_iff_completes (.ldB x) s).2 hI
  obtain ⟨hundreds, tens, ones⟩ := bcdDigits_toNat (s.v x)
  have hbyte {k : Nat} (hk : k < 3) := exec_ldB_byte hwf ht hk
  refine ⟨t, ht, ?_, ?_, ?_, exec_ldB_keepsBytesOutside ht, exec_keepsAllBut ht (List.Subset.refl _)⟩
  · exact hbyte (k := 0) (by omega) ▸ hundreds
  · exact hbyte (k := 1) (by omega) ▸ tens
  · exact hbyte (k := 2) (by omega) ▸ ones

/-! ## Store and load of the registers -/

/-- `Fx55` leaves `V[k]` at `I + k`. -/
theorem exec_stRegs_byte (hwf : s.mem.wf) (h : exec (.stRegs x) s = .next t) {k : Reg} (hk : k ≤ x) :
    t.byte (s.base + k.val) = s.v k := by
  obtain ⟨hin, rfl⟩ := exec_stRegs_next.1 h
  have hend : s.base + (s.regsUpTo x).length ≤ Config.memSize := by
    rw [regsUpTo_length]
    exact ((inBounds_iff _ _).1 hin).resolve_left (Nat.succ_ne_zero _)
  have hlen : k.val < (s.regsUpTo x).length := by
    rw [regsUpTo_length]
    exact Nat.lt_succ_of_le hk
  rw [State.setMem_byte, Memory.read_writeBytes_add hwf hend hlen, regsUpTo_getD s x k hk]

/-- `Fx65` leaves in `V[k]` the byte at `I + k`. -/
theorem exec_ldRegs_v (h : exec (.ldRegs x) s = .next t) {k : Reg} (hk : k ≤ x) :
    t.v k = s.byte (s.base + k.val) := by
  obtain ⟨-, rfl⟩ := exec_ldRegs_next.1 h
  have hlt : k.val < x.val + 1 := Nat.lt_succ_of_le hk
  rw [State.setRegs_v, load_getElem _ _ _ _ k.isLt, Memory.readBytes_length, if_pos ⟨Nat.zero_le _, by omega⟩,
    Nat.sub_zero, Memory.readBytes_getD _ _ _ _ hlt]
  rfl

/-- Settles O50, from the bytes stored and the frame of the store. -/
theorem registersAreStoredAscending : Obligations.RegistersAreStoredAscending := by
  refine fun x s => ⟨decodeWord_encode (.stRegs x), fun hwf hI => ?_⟩
  obtain ⟨t, ht⟩ := (exec_next_iff_completes (.stRegs x) s).2 hI
  exact ⟨t, ht, fun k hk => exec_stRegs_byte hwf ht hk, exec_stRegs_keepsBytesOutside ht,
    exec_keepsAllBut ht (List.Subset.refl _)⟩

/-- Settles O51; the registers above `x` are none of the load's destinations. -/
theorem registersAreLoadedAscending : Obligations.RegistersAreLoadedAscending := by
  refine fun x s => ⟨decodeWord_encode (.ldRegs x), fun hI => ?_⟩
  obtain ⟨t, ht⟩ := (exec_next_iff_completes (.ldRegs x) s).2 hI
  exact ⟨t, ht, fun k hk => exec_ldRegs_v ht hk,
    fun k hk => generalRegistersAreWrittenOnlyAsDestinations _ s t k ht (not_le.2 hk),
    exec_keepsAllBut ht (List.Subset.refl _)⟩

/-- Settles O53: the store kept `I`, so the load completes as the store did and reads the bytes it stored. -/
theorem loadAfterStoreRestoresTheRegisters : Obligations.LoadAfterStoreRestoresTheRegisters := by
  intro x s t u hwf hst huidx hbytes
  have hkept : t.idx = s.idx := exec_keepsAllBut_writes hst .idx (by simp [writes])
  have hbase : u.base = s.base := congrArg BitVec.toNat (huidx.trans hkept)
  have hin : u.base + x.val < 4096 := by
    rw [hbase]
    exact (exec_next_iff_completes (.stRegs x) s).1 ⟨t, hst⟩
  obtain ⟨w, hw⟩ := (exec_next_iff_completes (.ldRegs x) u).2 hin
  refine ⟨w, hw, fun k hk => ?_⟩
  calc w.v k = u.byte (s.base + k.val) := hbase ▸ exec_ldRegs_v hw hk
    _ = t.byte (s.base + k.val) := hbytes k hk
    _ = s.v k := exec_stRegs_byte hwf hst hk

end Sys2Proof.Machine
end

section
/-! SUPPORT. Clearing the display and drawing a sprite (spec/45_display.md R115 to R118). -/

namespace Sys2Proof.Machine

variable {s t u : State} {x y x' y' : Reg} {n : Nibble} {r : Fin 32} {c : Fin 64}

/-! ## Clearing -/

theorem clearDisplay_getElem (r : Fin 32) (c : Fin 64) : clearDisplay[r.val][c.val] = false := by
  simp only [clearDisplay, Vector.getElem_replicate]

/-- Settles O54, from the cleared frame buffer and the frame of the instruction. -/
theorem clearUnlightsEveryPixel : Obligations.ClearUnlightsEveryPixel :=
  ⟨decodeWord_encode .cls, fun s => ⟨_, exec_cls s, clearDisplay_getElem,
    exec_keepsAllBut (exec_cls s) (List.Subset.refl _)⟩⟩

/-! ## The pixels a sprite covers -/

/-- The pixels a sprite covers are those that the rows read for it cover on the drawing. -/
theorem spriteCovers_iff_covers : SpriteCovers s x y n r c ↔
    Covers ((s.v x).toNat % 64) ((s.v y).toNat % 32) (s.mem.readBytes s.base n.val) r c := by
  have hrow {k : Nat} (hk : k < n.val) : (s.mem.readBytes s.base n.val).getD k 0 = s.byte (s.base + k) :=
    Memory.readBytes_getD _ _ _ _ hk
  constructor
  · rintro ⟨k, j, hk, hj, hr, hc, hbit⟩
    exact ⟨k, (Memory.readBytes_length _ _ _).symm ▸ hk, hr, j, hj, hc, (hrow hk).symm ▸ hbit⟩
  · rintro ⟨k, hk, hr, j, hj, hc, hbit⟩
    rw [Memory.readBytes_length] at hk
    exact ⟨k, j, hk, hj, hr, hc, hrow hk ▸ hbit⟩

/-- Only the origin on the display and the sprite's bytes matter, not where they come from. -/
theorem spriteCovers_congr (hx : (u.v x').toNat % 64 = (s.v x).toNat % 64)
    (hy : (u.v y').toNat % 32 = (s.v y).toNat % 32) (hbytes : ∀ k < n.val, u.byte (u.base + k) = s.byte (s.base + k)) :
    SpriteCovers u x' y' n r c ↔ SpriteCovers s x y n r c := by
  simp only [SpriteCovers, hx, hy]
  refine exists_congr fun k => exists_congr fun j => and_congr_right fun hk => ?_
  rw [hbytes k hk]

/-! ## One draw -/

/-- A sprite has at most 15 rows, so none is drawn over another. -/
theorem sprite_length_le (s : State) (n : Nibble) : (s.mem.readBytes s.base n.val).length ≤ 32 := by
  rw [Memory.readBytes_length]
  omega

theorem exec_drw_pixel (h : exec (.drw x y n) s = .next t) (r : Fin 32) (c : Fin 64) :
    (SpriteCovers s x y n r c → t.pixel r c = !s.pixel r c) ∧
      (¬SpriteCovers s x y n r c → t.pixel r c = s.pixel r c) := by
  obtain ⟨-, rfl⟩ := exec_drw_next.1 h
  rw [spriteCovers_iff_covers]
  exact drawRows_pixel _ _ _ (sprite_length_le s n) (s.disp, false) r c

/-- The flag a draw leaves is its collision bit (R117). -/
theorem exec_drw_flag (h : exec (.drw x y n) s = .next t) :
    ∃ hit, t.v 15 = b2n hit ∧ (hit = true ↔ ∃ r c, SpriteCovers s x y n r c ∧ s.pixel r c = true) := by
  obtain ⟨-, rfl⟩ := exec_drw_next.1 h
  refine ⟨_, (State.setFlag_v _ _ _).trans (if_pos rfl), ?_⟩
  simp only [spriteCovers_iff_covers]
  exact (drawRows_hit _ _ _ (sprite_length_le s n) (s.disp, false)).trans (or_iff_right Bool.false_ne_true)

theorem b2n_eq_one {q : Bool} : b2n q = 1 ↔ q = true := by cases q <;> decide

theorem exec_drw_flag_eq_one (h : exec (.drw x y n) s = .next t) :
    t.v 15 = 1 ↔ ∃ r c, SpriteCovers s x y n r c ∧ s.pixel r c = true := by
  obtain ⟨hit, hflag, hlit⟩ := exec_drw_flag h
  rw [hflag, b2n_eq_one, hlit]

theorem exec_drw_flag_eq_zero (h : exec (.drw x y n) s = .next t)
    (hunlit : ∀ r c, SpriteCovers s x y n r c → s.pixel r c = false) : t.v 15 = 0 := by
  obtain ⟨hit, hflag, hlit⟩ := exec_drw_flag h
  have hmiss : hit = false := Bool.eq_false_iff.2 fun hhit => by
    obtain ⟨r, c, hcovers, hpixel⟩ := hlit.1 hhit
    exact Bool.eq_false_iff.1 (hunlit r c hcovers) hpixel
  rw [hflag, hmiss, b2n_false]

/-- Settles O55, from the pixels and the flag of one draw; the flag register is its only destination. -/
theorem drawTogglesThePixelsItCovers : Obligations.DrawTogglesThePixelsItCovers := by
  refine fun x y n s => ⟨decodeWord_encode (.drw x y n), fun hrows => ?_⟩
  have hcompletes : completes (.drw x y n) s := show n.val = 0 ∨ s.base + n.val ≤ 4096 by omega
  obtain ⟨t, ht⟩ := (exec_next_iff_completes (.drw x y n) s).2 hcompletes
  exact ⟨t, ht, exec_drw_pixel ht, (exec_drw_flag_eq_one ht).2, exec_drw_flag_eq_zero ht,
    fun r hr => generalRegistersAreWrittenOnlyAsDestinations _ s t r ht fun h15 => hr (List.mem_singleton.2 h15),
    exec_keepsAllBut ht (List.Subset.refl _)⟩

/-! ## Two draws -/

/-- Settles O56: both draws cover the same pixels, and each of these is toggled twice. -/
theorem secondDrawRestoresTheDisplay : Obligations.SecondDrawRestoresTheDisplay := by
  intro x y x' y' n s t u w hfirst hsecond hdisp hx hy hbytes
  have hcovers {r : Fin 32} {c : Fin 64} : SpriteCovers u x' y' n r c ↔ SpriteCovers s x y n r c :=
    spriteCovers_congr hx hy hbytes
  constructor
  · intro r c
    obtain ⟨hs, hs'⟩ := exec_drw_pixel hfirst r c
    obtain ⟨hu, hu'⟩ := exec_drw_pixel hsecond r c
    by_cases h : SpriteCovers s x y n r c
    · rw [hu (hcovers.2 h), hdisp r c, hs h, Bool.not_not]
    · rw [hu' (mt hcovers.1 h), hdisp r c, hs' h]
  · rw [exec_drw_flag_eq_one hsecond]
    refine exists_congr fun r => exists_congr fun c => and_congr hcovers ?_
    rw [hdisp r c]

end Sys2Proof.Machine
end

section
/-! SUPPORT. Key skips, the key wait and the timer instructions (spec/46_keys_timers.md R121 to R127). -/

namespace Sys2Proof.Machine

variable {s t : State} {x : Reg} {k : Fin 16} {b : Byte} {op : HostOp}

/-! ## The skips on a key -/

theorem exec_skp_of_key (hk : (s.v x).toNat = k.val) : exec (.skp x) s = .next (s.skipIf (s.key k)) :=
  exec_skp_next.2 ⟨hk ▸ k.isLt, by simp only [hk]⟩

theorem exec_sknp_of_key (hk : (s.v x).toNat = k.val) : exec (.sknp x) s = .next (s.skipIf !s.key k) :=
  exec_sknp_next.2 ⟨hk ▸ k.isLt, by simp only [hk]⟩

/-- Settles O57, from the common rule of the skips and the fault rules of the two instructions. -/
theorem keySkipsTestTheNamedKey : Obligations.KeySkipsTestTheNamedKey := fun x _ =>
  ⟨decodeWord_encode (.skp x), decodeWord_encode (.sknp x),
    fun _ hk => ⟨exec_skip_spec (exec_skp_of_key hk) Iff.rfl,
      exec_skip_spec (exec_sknp_of_key hk) (Bool.not_eq_true' _).to_iff⟩,
    fun hge => ⟨exec_skp_fault.2 ⟨hge, rfl⟩, exec_sknp_fault.2 ⟨hge, rfl⟩⟩⟩

/-! ## The timers -/

/-- Settles O59, from the rule of one register written and the frames of the two timers. -/
theorem timerInstructionsCopyOneByte : Obligations.TimerInstructionsCopyOneByte := fun x s =>
  ⟨decodeWord_encode (.ldVxDt x), decodeWord_encode (.ldDtVx x), decodeWord_encode (.ldStVx x),
    exec_setV_spec (exec_ldVxDt s x),
    ⟨_, exec_ldDtVx s x, State.setDt_dt s _, (sameBut_setDt s _).keepsAllBut⟩,
    _, exec_ldStVx s x, State.setSt_st s _, (sameBut_setSt s _).keepsAllBut, decide_eq_true_iff⟩

/-! ## One key wait -/

theorem exec_ldVxK_of_firstPressed (hk : s.firstPressed = some k) :
    exec (.ldVxK x) s = .next (s.setV x (BitVec.ofNat 8 k.val)) :=
  exec_ldVxK_next.2 (.inl ⟨k, hk, rfl⟩)

theorem exec_ldVxK_of_no_key (hkeys : ∀ k, s.key k = false) : exec (.ldVxK x) s = .next s.rewind :=
  exec_ldVxK_next.2 (.inr ⟨(firstPressed_none s).2 hkeys, rfl⟩)

theorem keyByte_toNat (k : Fin 16) : (BitVec.ofNat 8 k.val : Byte).toNat = k.val := by
  rw [BitVec.toNat_ofNat]
  omega

/-- Settles O58, by whether a key is pressed; the cycle without one is that of O23. -/
theorem keyWaitTakesTheLeastPressedKey : Obligations.KeyWaitTakesTheLeastPressedKey := by
  refine fun x s => ⟨decodeWord_encode (.ldVxK x), fun k hk hlow => ?_, fun hkeys => ⟨?_, fun hpc hi => ?_⟩⟩
  · have hfirst : s.firstPressed = some k := (firstPressed_some s k).2 ⟨hk, hlow⟩
    obtain ⟨t, ht, hv, hframe⟩ := exec_setV_spec (exec_ldVxK_of_firstPressed (x := x) hfirst)
    exact ⟨t, ht, hv ▸ keyByte_toNat k, hframe⟩
  · exact ⟨_, exec_ldVxK_of_no_key hkeys, State.rewind_pc s, (sameBut_rewind s).keepsAllBut⟩
  · exact (cycleChangesNothingOnlyInAWaitOrASelfJump s).2 (.inl ⟨(fetchable_iff s).2 hpc, ⟨x, hi⟩, hkeys⟩)

/-! ## Operations during a key wait -/

theorem perform_runCycle_of_next (h : runCycle b s = .next t) : perform (.runCycle b) s = accept t := by
  rw [perform, h]
  rfl

/-- A cycle at `Fx0A` takes no random byte. -/
theorem runCycle_of_ldVxK (hf : s.fetchable = true) (hi : decodeWord s.fetchWord = some (.ldVxK x)) :
    runCycle b s = exec (.ldVxK x) s.advance :=
  cycleWith_of_decode hf hi

/-- Reporting a key released that was not pressed changes nothing (R133). -/
theorem setKeys_release_eq_self (hk : s.key k = false) : s.setKeys (s.keys.set k.val false) = s := by
  have hkeys : s.keys.set k.val false = s.keys := hk ▸ Vector.set_getElem_self k.isLt
  rw [hkeys]
  rfl

/-- The operations that neither end a key wait nor replace its instruction (R127). -/
def LeavesWaiting (op : HostOp) : Prop :=
  (∃ b, op = .runCycle b) ∨ op = .advanceTimers ∨ op = .readDisplay ∨
    (∃ k p, op = .setKeyState k p ∧ (p = false ∨ 16 ≤ k)) ∨ ∃ data, op = .loadProgram data ∧ 3584 < data.length

/-- A tick moves the timers; the others give back the very state. -/
theorem AtKeyWait.perform_sameBut (hs : AtKeyWait s) (hop : LeavesWaiting op) :
    SameBut [.dt, .st] s (perform op s).state := by
  have hself (heq : (perform op s).state = s) : SameBut [.dt, .st] s (perform op s).state :=
    heq.symm ▸ (sameBut_refl s).mono (List.nil_subset _)
  obtain ⟨hf, ⟨x, hi⟩, hkeys⟩ := hs
  obtain ⟨b, rfl⟩ | rfl | rfl | ⟨k, p, rfl, hrelease⟩ | ⟨data, rfl, hlong⟩ := hop
  · have hcycle : runCycle b s = .next s := (runCycle_of_ldVxK hf hi).trans (exec_ldVxK_advance_self.2 hkeys)
    exact hself (congrArg HostResult.state (perform_runCycle_of_next hcycle))
  · exact (sameBut_setDt s _).trans (sameBut_setSt _ _)
  · exact hself rfl
  · obtain hk | hk := Nat.lt_or_ge k 16
    · obtain rfl : p = false := hrelease.resolve_right (Nat.not_le.2 hk)
      refine hself ?_
      rw [perform_setKeyState_of_lt s hk, accept_state]
      exact setKeys_release_eq_self (k := ⟨k, hk⟩) (hkeys _)
    · exact hself (by rw [perform_setKeyState_of_ge s hk, reject_state])
  · exact hself (by rw [perform_loadProgram_of_gt s hlong, reject_state])

/-- A wait is a matter of memory, `pc` and the keys. -/
theorem AtKeyWait.of_sameBut (hs : AtKeyWait s) (h : SameBut [.dt, .st] s t) : AtKeyWait t := by
  have hmem : t.mem = s.mem := h .mem (by simp)
  have hpc : t.pc = s.pc := h .pc (by simp)
  have hkeys : t.keys = s.keys := h .keys (by simp)
  simpa only [AtKeyWait, State.fetchable, State.fetchWord, State.byte, State.key, hmem, hpc, hkeys] using hs

theorem AtKeyWait.performAll_sameBut (hs : AtKeyWait s) {ops : List HostOp} (hops : ∀ op ∈ ops, LeavesWaiting op) :
    SameBut [.dt, .st] s (performAll ops s) := by
  induction ops generalizing s with
  | nil => exact (sameBut_refl s).mono (List.nil_subset _)
  | cons op ops ih =>
    obtain ⟨hop, hops⟩ := List.forall_mem_cons.1 hops
    have hfirst := hs.perform_sameBut hop
    exact (hfirst.trans (ih (hs.of_sameBut hfirst) hops)).mono (by simp)

/-! ## The ends of a key wait -/

theorem runCycle_ldVxK_pressed_pc (hf : s.fetchable = true) (hi : decodeWord s.fetchWord = some (.ldVxK x))
    (hk : s.key k = true) (b : Byte) : (perform (.runCycle b) s).state.pc.toNat = s.pc.toNat + 2 := by
  have hne : s.advance.firstPressed ≠ none := fun hnone => by
    simpa only [State.advance_key, hk, Bool.true_eq_false] using (firstPressed_none _).1 hnone k
  obtain ⟨j, hj⟩ := Option.ne_none_iff_exists'.1 hne
  rw [perform_runCycle_of_next ((runCycle_of_ldVxK hf hi).trans (exec_ldVxK_of_firstPressed hj))]
  exact advance_pc_toNat ((fetchable_iff s).1 hf)

theorem AtKeyWait.press_pc (hs : AtKeyWait s) (k : Fin 16) (b : Byte) :
    (performAll [.setKeyState k.val true, .runCycle b] s).pc.toNat = s.pc.toNat + 2 := by
  obtain ⟨hf, ⟨x, hi⟩, -⟩ := hs
  have hk : (s.setKeys (s.keys.set k.val true)).key k = true := Vector.getElem_set_self k.isLt
  rw [performAll, perform_setKeyState_of_lt s k.isLt]
  exact runCycle_ldVxK_pressed_pc (s := s.setKeys (s.keys.set k.val true)) hf hi hk b

/-- The word at the load address after a reset is 0x0000, a no-op (R23). -/
theorem resetBlock_fetchWord (s : State) : s.resetBlock.fetchWord = encode .nop := by
  have hpc : s.resetBlock.pc.toNat = 0x200 := rfl
  have hzero {a : Nat} (ha : 80 ≤ a) : s.resetBlock.byte a = 0 := background_zero ha
  rw [State.fetchWord, hpc, hzero (by omega), hzero (by omega)]
  rfl

theorem resetBlock_not_atKeyWait (s : State) : ¬AtKeyWait s.resetBlock := by
  rintro ⟨-, ⟨x, hi⟩, -⟩
  rw [resetBlock_fetchWord, decodeWord_encode] at hi
  cases hi

/-- Settles O25: by induction on the operations, then the press, then the reset. -/
theorem keyWaitGoesOnUntilAKeyAResetOrALoad : Obligations.KeyWaitGoesOnUntilAKeyAResetOrALoad := by
  refine fun s hs => ⟨fun ops hops => ?_, hs.press_pc, fun op hop => ?_⟩
  · have hsame := hs.performAll_sameBut hops
    exact ⟨hs.of_sameBut hsame, hsame.keepsAllBut⟩
  · obtain rfl | rfl := List.mem_pair.1 hop <;> exact ⟨resetBlock_not_atKeyWait s, rfl⟩

end Sys2Proof.Machine
end

section
/-! SUPPORT. Loading a program, reporting a key and reading the display (spec/50_host_operations.md R132 to R134). -/

namespace Sys2Proof.Machine

/-! ## Loading a program -/

/-- Settles O28: by the length of the image, from the laws of a run of bytes stored in memory. -/
theorem loadCopiesTheImageOrRejectsIt : Obligations.LoadCopiesTheImageOrRejectsIt := by
  refine fun s data hwf => ⟨fun hlen => ?_, fun hlong => perform_loadProgram_of_gt s hlong⟩
  have hend : 0x200 + data.length ≤ Config.memSize := by rw [memSize_eq]; omega
  rw [perform_loadProgram_of_le s hlen]
  exact ⟨rfl, (sameBut_setMem s _).keepsAllBut, keepsBytesOutside_writeBytes s 0x200 data,
    fun _ hk => Memory.read_writeBytes_add hwf hend hk⟩

/-! ## Reporting a key -/

theorem sameBut_setKeys (s : State) (x : Keys) : SameBut [.keys] s (s.setKeys x) := by
  intro p hp; cases p <;> simp_all [Same]

/-- One key set, the others as they were (R133). -/
theorem setKeys_set_key (s : State) {j : Nat} (hj : j < 16) (p : Bool) (k : Fin 16) :
    (s.setKeys (s.keys.set j p hj)).key k = if k.val = j then p else s.key k := by
  rw [State.setKeys_key, Vector.getElem_set, State.key]
  simp only [eq_comm (a := j)]

/-- Settles O29: by whether the index names a key. -/
theorem keyReportSetsOneKey : Obligations.KeyReportSetsOneKey := by
  refine fun s j p => ⟨fun hj => ?_, fun hj => perform_setKeyState_of_ge s hj p⟩
  rw [perform_setKeyState_of_lt s hj]
  exact ⟨rfl, (sameBut_setKeys s _).keepsAllBut, setKeys_set_key s hj p⟩

/-! ## Reading the display -/

/-- The view is the rows of the frame buffer one after the other (R18, R134). -/
theorem displayView_eq_flatten (s : State) : s.displayView = s.disp.flatten.toList := by
  calc s.displayView = (s.disp.toArray.toList.map (Array.toList ∘ Vector.toArray)).flatten := List.flatMap_def
    _ = (s.disp.toArray.map Vector.toArray).flatten.toList := by
      rw [Array.toList_flatten, Array.toList_map, List.map_map]
    _ = s.disp.flatten.toList := rfl

theorem displayView_length (s : State) : s.displayView.length = 2048 := by
  rw [displayView_eq_flatten, Vector.length_toList]

/-- 64 pixels a row: quotient and remainder of an index are its row and its column. -/
theorem displayView_getElem? (s : State) (r : Fin 32) (c : Fin 64) :
    s.displayView[r.val * 64 + c.val]? = some (s.pixel r c) := by
  have hlt : r.val * 64 + c.val < 32 * 64 := by omega
  have hrow : (r.val * 64 + c.val) / 64 = r.val := by omega
  have hcol : (r.val * 64 + c.val) % 64 = c.val := by omega
  rw [displayView_eq_flatten, Vector.getElem?_toList, Vector.getElem?_eq_getElem hlt, Vector.getElem_flatten]
  simp only [hrow, hcol, State.pixel]

/-- Settles O31, from the length of the view and its elements. -/
theorem displayIsReadInRowMajorOrder : Obligations.DisplayIsReadInRowMajorOrder := fun s =>
  ⟨rfl, rfl, displayView_length s, displayView_getElem? s⟩

end Sys2Proof.Machine
end

section
/-! SUPPORT. The finished run (spec/70_reset_and_hazards.md R176): a jump to its own address, and the operations that
leave the machine standing at it. -/

namespace Sys2Proof.Machine

variable {s t : State} {e : Addr} {b : Byte} {op : HostOp}

/-! ## Cycles at a self-jump -/

theorem AtEnd.runCycle_eq (hs : AtEnd e s) : runCycle b s = .next s := by
  obtain ⟨hpc, hf, hw⟩ := hs
  have hdecode : decodeWord s.fetchWord = some (.jp e) := hw ▸ decodeWord_encode (.jp e)
  calc runCycle b s = exec (.jp e) s.advance := cycleWith_of_decode hf hdecode
    _ = .next s := exec_jp_advance_self.2 (by rw [hpc, zextAddr_toNat])

/-- A fixed point of a machine's step is one of any number of its steps. -/
theorem run_eq_of_step_eq {M : Host.Core} {s : M.State} (h : M.step s = .next s) (n : Nat) : M.run n s = .next s := by
  induction n with
  | zero => rfl
  | succ n ih => rw [Host.Core.run, h]; exact ih

theorem AtEnd.safeFor (hs : AtEnd e s) (n : Nat) : SafeFor n s :=
  ⟨s, run_eq_of_step_eq (M := core) ((stepIsRunCycleAtTheDrawnByte s).trans hs.runCycle_eq) n⟩

/-! ## Operations at a self-jump -/

/-- The operations that neither reset the machine nor load a program (R131). -/
def RunsOn (op : HostOp) : Prop :=
  (∃ b, op = .runCycle b) ∨ op = .advanceTimers ∨ (∃ k p, op = .setKeyState k p) ∨ op = .readDisplay

/-- A key report, accepted or rejected, touches the keys at most (R133). -/
theorem perform_setKeyState_sameBut (s : State) (k : Nat) (p : Bool) :
    SameBut [.keys] s (perform (.setKeyState k p) s).state := by
  obtain hk | hk := Nat.lt_or_ge k 16
  · rw [perform_setKeyState_of_lt s hk, accept_state]
    exact sameBut_setKeys s _
  · rw [perform_setKeyState_of_ge s hk, reject_state]
    exact (sameBut_refl s).mono (List.nil_subset _)

theorem perform_advanceTimers_sameBut (s : State) : SameBut [.dt, .st] s (perform .advanceTimers s).state :=
  (sameBut_setDt s _).trans (sameBut_setSt _ _)

/-- A key report moves the keys, a tick the timers; the others give back the very state. -/
theorem AtEnd.perform_sameBut (hs : AtEnd e s) (hop : RunsOn op) :
    SameBut [.keys, .dt, .st] s (perform op s).state := by
  obtain ⟨b, rfl⟩ | rfl | ⟨k, p, rfl⟩ | rfl := hop
  · rw [perform_runCycle_of_next hs.runCycle_eq, accept_state]
    exact (sameBut_refl s).mono (List.nil_subset _)
  · exact (perform_advanceTimers_sameBut s).mono (by simp)
  · exact (perform_setKeyState_sameBut s k p).mono (by simp)
  · exact (sameBut_refl s).mono (List.nil_subset _)

/-- Standing at a self-jump is a matter of memory and `pc`. -/
theorem AtEnd.of_sameBut (hs : AtEnd e s) (h : SameBut [.keys, .dt, .st] s t) : AtEnd e t := by
  have hmem : t.mem = s.mem := h .mem (by simp)
  have hpc : t.pc = s.pc := h .pc (by simp)
  simpa only [AtEnd, State.fetchable, State.fetchWord, State.byte, hmem, hpc] using hs

/-- What each operation of a history keeps, the history keeps (R131). -/
theorem performAll_keeps {P : State → Prop} {ops : List HostOp}
    (hops : ∀ op ∈ ops, ∀ t, P t → P (perform op t).state) (hs : P s) : P (performAll ops s) := by
  induction ops generalizing s with
  | nil => exact hs
  | cons op ops ih =>
    obtain ⟨hop, hops⟩ := List.forall_mem_cons.1 hops
    exact ih hops (hop s hs)

theorem AtEnd.performAll_sameBut (hs : AtEnd e s) {ops : List HostOp} (hops : ∀ op ∈ ops, RunsOn op) :
    SameBut [.keys, .dt, .st] s (performAll ops s) := by
  refine performAll_keeps (fun op hop t ht => ?_) ((sameBut_refl s).mono (List.nil_subset _))
  have hlast := (hs.of_sameBut ht).perform_sameBut (hops op hop)
  exact (ht.trans hlast).mono (by simp)

/-- Settles O24: a cycle gives the state back, so any number of them runs; each of the operations keeps
the memory and `pc` of the self-jump. -/
theorem finishedRunStaysFinished : Obligations.FinishedRunStaysFinished := by
  refine fun e s hs => ⟨hs.safeFor, fun _ => perform_runCycle_of_next hs.runCycle_eq, fun ops hops => ?_⟩
  have hsame := hs.performAll_sameBut hops
  exact ⟨hs.of_sameBut hsame, hsame.keepsAllBut⟩

end Sys2Proof.Machine
end

section
/-! SUPPORT. Errors (spec/60_exceptions.md R144 to R148): a failed cycle whatever the random byte, what an operation
that fails leaves, and the bounds at which the stack and the memory instructions raise. -/

namespace Sys2Proof.Machine

variable {s : State} {b : Byte} {i : Instr} {f : Fault} {r : Refusal}

/-! ## A failed cycle -/

/-- `Cxnn`, the one instruction that takes the byte, never faults; the others are `exec` itself. -/
theorem execWithInput_fault : execWithInput b i s = .fault f ↔ exec i s = .fault f := by
  cases i with
  | rnd x nn => simp [execWithInput, execRndWith, exec_rnd]
  | _ => rfl

/-- The faults of a cycle do not depend on its random byte. -/
theorem runCycle_fault : runCycle b s = .fault f ↔ step s = .fault f := by
  simp only [runCycle, step, cycleWith_fault, execWithInput_fault]

/-- Settles O11: the fault is the step's whatever the byte, and the state left behind is the one before. -/
theorem failedCycleFailsAgain : Obligations.FailedCycleFailsAgain := by
  intro b c s f hb
  have hc : runCycle c s = .fault f := runCycle_fault.2 (runCycle_fault.1 hb)
  refine ⟨hc, ?_⟩
  rw [perform_runCycle_of_fault hb, reject_state]
  exact perform_runCycle_of_fault hc

/-! ## A failed operation -/

theorem execWithInput_ne_refused : execWithInput b i s ≠ .refused r := by
  cases i with
  | rnd => nofun
  | _ => rw [execWithInput_of_ne (by nofun)]; exact exec_ne_refused _ s r

theorem runCycle_ne_refused : runCycle b s ≠ .refused r := by
  intro h
  obtain ⟨-, hrun⟩ := guardAccess_refused.1 h
  cases hi : decodeWord s.fetchWord with
  | none => simp [hi] at hrun
  | some i => exact execWithInput_ne_refused (by simpa only [hi] using hrun)

/-- R8, R146: an operation ends `Ok`, or with an error and the state it began with. -/
theorem perform_ok_or_reject (op : HostOp) (s : State) :
    (perform op s).answer = .ok ∨ ∃ f, perform op s = reject s f := by
  cases op with
  | init | reset | advanceTimers | readDisplay => exact .inl rfl
  | loadProgram data =>
    obtain hlen | hlong := le_or_gt data.length 3584
    · exact .inl (by rw [perform_loadProgram_of_le s hlen, accept_answer])
    · exact .inr ⟨_, perform_loadProgram_of_gt s hlong⟩
  | setKeyState k p =>
    obtain hk | hk := Nat.lt_or_ge k 16
    · exact .inl (by rw [perform_setKeyState_of_lt s hk, accept_answer])
    · exact .inr ⟨_, perform_setKeyState_of_ge s hk p⟩
  | runCycle b =>
    cases h : runCycle b s with
    | next t => exact .inl (by rw [perform_runCycle_of_next h, accept_answer])
    | fault f => exact .inr ⟨f, perform_runCycle_of_fault h⟩
    | refused r => exact absurd h runCycle_ne_refused

/-- Settles O27, from the two ways an operation ends. -/
theorem failedOperationLeavesTheState : Obligations.FailedOperationLeavesTheState := by
  intro op s
  obtain hok | ⟨g, hrej⟩ := perform_ok_or_reject op s
  · simp [hok]
  · simp [hrej]

/-! ## The call stack and the address space at their bounds -/

/-- Settles O37, from the fault rules of call and return. -/
theorem fullAndEmptyStackRaise : Obligations.FullAndEmptyStackRaise := fun _ =>
  ⟨fun hsp _ => exec_call_fault.2 ⟨congrArg Fin.val hsp, rfl⟩,
    fun hsp => exec_ret_fault.2 ⟨congrArg Fin.val hsp, rfl⟩⟩

/-- The effective addresses from `I` leave memory when the highest of them does (R37). -/
theorem inBounds_base_eq_false {n : Nat} (hn : 0 < n) (h : 4096 ≤ s.idx.toNat + n - 1) :
    inBounds s.base n = false :=
  (inBounds_eq_false_iff _ _).2 ⟨hn, by rw [State.base]; omega⟩

/-- Settles O52: each of the four uses its bounds check, of 3, `x + 1` or `n` bytes. -/
theorem operandsOutsideMemoryFault : Obligations.OperandsOutsideMemoryFault := fun x _ _ _ =>
  ⟨fun h => exec_ldB_fault.2 ⟨inBounds_base_eq_false (by decide) h, rfl⟩,
    fun h =>
      have hout := inBounds_base_eq_false x.val.succ_pos h
      ⟨exec_stRegs_fault.2 ⟨hout, rfl⟩, exec_ldRegs_fault.2 ⟨hout, rfl⟩⟩,
    fun hn h => exec_drw_fault.2 ⟨inBounds_base_eq_false hn h, rfl⟩⟩

end Sys2Proof.Machine
end

section
/-! SUPPORT. The timers between cycles (spec/60_exceptions.md R155). -/

namespace Sys2Proof.Machine

theorem tickByte_toNat (b : Byte) : (tickByte b).toNat = b.toNat - 1 := by
  unfold tickByte
  split
  · next h => simp [h]
  · next h => bv_omega

theorem advanceTimers_dt_toNat (s : State) : s.advanceTimers.dt.toNat = s.dt.toNat - 1 := tickByte_toNat s.dt

theorem advanceTimers_st_toNat (s : State) : s.advanceTimers.st.toNat = s.st.toNat - 1 := tickByte_toNat s.st

theorem performAll_ticks_toNat (n : Nat) (s : State) :
    (performAll (List.replicate n .advanceTimers) s).dt.toNat = s.dt.toNat - n ∧
      (performAll (List.replicate n .advanceTimers) s).st.toNat = s.st.toNat - n := by
  induction n generalizing s with
  | zero => exact ⟨rfl, rfl⟩
  | succ n ih =>
    obtain ⟨hdt, hst⟩ := ih s.advanceTimers
    rw [advanceTimers_dt_toNat] at hdt
    rw [advanceTimers_st_toNat] at hst
    rw [List.replicate_succ, performAll, perform_advanceTimers, accept_state]
    omega

/-- Settles O30: one tick by its frame, `n` ticks by induction. -/
theorem tickCountsBothTimersDown : Obligations.TickCountsBothTimersDown := fun s =>
  ⟨rfl, (perform_advanceTimers_sameBut s).keepsAllBut, fun n => performAll_ticks_toNat n s⟩

end Sys2Proof.Machine
end
